-- ==== Sys2Proof/Word.lean ====
section
/-!
DEFINITION. The fixed-width words of the BitCursor block: bytes, the command word and its argument field, the
metadata block header word, the write-data port and the STREAMINFO payload. Every value is unsigned (R10); integer
bit numbering is R11's, which is that of `BitVec`.
-/

namespace Sys2Proof

/-- The unit of storage (R50). -/
abbrev Byte := BitVec 8

/-- The command word, `CMD_W` = 32 bits (R9, R80). -/
abbrev CmdWord := BitVec 32

/-- The command word's argument field, bits 23:0 (R80). -/
abbrev Arg := BitVec 24

/-- The metadata block header word `W` (R71). -/
abbrev HeaderWord := BitVec 32

/-- The write-data port, `WDATA_W` = 8 × BUF_BYTES bits (R9, R84). -/
abbrev WData := BitVec 272

/-- A STREAMINFO payload as its big-endian value `P`, `SI_BITS` = 272 bits (R9, R75). -/
abbrev Payload := BitVec 272

end Sys2Proof
end

