-- ==== Sys2Proof/Config.lean ====
section
/-!
DEFINITION. The parameters of the block (R9): the values the source fixes, the decisions at the spec's defaults, and
the one open parameter, LATENCY, as an uninterpreted constant.
-/

namespace Sys2Proof.Config

/-- MAX_READ: "for 1 ≤ n ≤ 64". -/
def maxRead : Nat := 64

/-- MIN_READ. -/
def minRead : Nat := 1

/-- HDR_BYTES: bytes in a metadata block header. -/
def hdrBytes : Nat := 4

/-- SI_BYTES: bytes of a STREAMINFO payload that are decoded. -/
def siBytes : Nat := 34

/-- SI_BITS = 8 × SI_BYTES. -/
def siBits : Nat := 272

/-- LENGTH_MAX = 2^24 − 1. -/
def lengthMax : Nat := 16777215

/-- BUF_BYTES, the capacity of the cursor's buffer. DESIGN CHOICE (log 6, unsafe for a block of another capacity):
R9 admits any value ≥ 34 and gives 34 as the default, which is taken. -/
def bufBytes : Nat := 34

/-- The SI field widths in extraction order (R9, §4.4 list). -/
def siFieldWidths : List Nat := [16, 16, 24, 24, 20, 3, 5, 36, 128]

/-- LATENCY(cmd) is OPEN (R9, R226, U19): finite, at least 1 clock, "possibly different per command and per
operand". The clocks beyond the first are an uninterpreted function of the command's operands; nothing proves a value
of it (log 11, safe). -/
opaque latencyBeyondFirst : CmdWord → WData → Nat

/-- LATENCY(cmd) ≥ 1 (R226). -/
def latency (cmd : CmdWord) (wdata : WData) : Nat := latencyBeyondFirst cmd wdata + 1

end Sys2Proof.Config
end

