-- ==== Sys2Proof/Syntax.lean ====
section
/-!
DEFINITION. What the host can present to the block and what it stands for: the decoded records (R29, R30, R73), the
four formats of spec/opcode_table.json as the host presents them, and `Instr`, one constructor for each of its 24 rows.
-/

namespace Sys2Proof

/-- The nine fields of a STREAMINFO record with the widths of R30 (§3 of the source). -/
structure Streaminfo where
  minBlkSize       : BitVec 16
  maxBlkSize       : BitVec 16
  minFrameSize     : BitVec 24
  maxFrameSize     : BitVec 24
  sampleRate       : BitVec 20
  numChannels      : BitVec 3
  bitsPerSample    : BitVec 5
  totalSampleCount : BitVec 36
  md5Checksum      : BitVec 128
  deriving DecidableEq, Repr

/-- The HDR registers (R29): the 7-bit type code is held, the variant is `blockTypeOf` of it. -/
structure HeaderRegs where
  isLast : Bool
  type   : BitVec 7
  length : BitVec 24
  deriving DecidableEq, Repr

/-- The closed variant BlockType (R73). A `reserved c` with `c` outside 7..126 is not a value of the variant; see
`BlockType.wellFormed`. -/
inductive BlockType where
  | streaminfo
  | padding
  | application
  | seektable
  | vorbisComment
  | cuesheet
  | picture
  | forbidden
  | reserved (code : BitVec 7)
  deriving DecidableEq, Repr

/-- One constructor for each row of spec/opcode_table.json.

The four rows of format CMD are the block's commands: `arg` and, where the command uses it, the write data presented
with the word (R17, R80, R84).

The eighteen rows of format BLKHDR are header words, told apart by their type code; where a row leaves low bits of the
code open they are an operand. They stand for the host presenting that word to BHD (log 8). The row of format SI272 is
a payload, by its nine fields, presented to SID (log 9). READ128 is the pseudo-command of R92 (log 10). -/
inductive Instr where
  | load  (len : Arg) (wdata : WData)
  | read  (n : Arg)
  | hdec  (cnt : Arg) (wdata : WData)
  | sidec (plen : Arg) (wdata : WData)
  | btStreaminfo    (isLast : Bool) (length : BitVec 24)
  | btPadding       (isLast : Bool) (length : BitVec 24)
  | btApplication   (isLast : Bool) (length : BitVec 24)
  | btSeektable     (isLast : Bool) (length : BitVec 24)
  | btVorbiscomment (isLast : Bool) (length : BitVec 24)
  | btCuesheet      (isLast : Bool) (length : BitVec 24)
  | btPicture       (isLast : Bool) (length : BitVec 24)
  | btReserved7          (isLast : Bool) (length : BitVec 24)
  | btReserved8to15      (low : BitVec 3) (isLast : Bool) (length : BitVec 24)
  | btReserved16to31     (low : BitVec 4) (isLast : Bool) (length : BitVec 24)
  | btReserved32to63     (low : BitVec 5) (isLast : Bool) (length : BitVec 24)
  | btReserved64to95     (low : BitVec 5) (isLast : Bool) (length : BitVec 24)
  | btReserved96to111    (low : BitVec 4) (isLast : Bool) (length : BitVec 24)
  | btReserved112to119   (low : BitVec 3) (isLast : Bool) (length : BitVec 24)
  | btReserved120to123   (low : BitVec 2) (isLast : Bool) (length : BitVec 24)
  | btReserved124to125   (low : BitVec 1) (isLast : Bool) (length : BitVec 24)
  | btReserved126        (isLast : Bool) (length : BitVec 24)
  | btForbidden     (isLast : Bool) (length : BitVec 24)
  | si272 (record : Streaminfo)
  | read128
  deriving DecidableEq, Repr

/-- What the host presents, one constructor for each format of spec/opcode_table.json. "Rows of format CMD and BLKHDR
are matched against different words (a command word, a header word) and are never compared with each other" (R86). -/
inductive Request where
  /-- Format CMD: a command word and the write data presented with it (R80, R84, R91). -/
  | command (cmd : CmdWord) (wdata : WData)
  /-- Format BLKHDR: a metadata block header word for BHD (R70, R71). -/
  | header (word : HeaderWord)
  /-- Format SI272: a STREAMINFO payload for SID (R70, R75). -/
  | payload (p : Payload)
  /-- Format CMDx2: the pseudo-command READ128, two commands READ 64 (R92). -/
  | read128
  deriving DecidableEq, Repr

/-- Why a request is no instruction: the one reserved field of the command word, `zero` = bits 29:24, is not 0 (R81,
R82). All four values of `op` are assigned (R80), so nothing else is rejected. -/
inductive DecodeError where
  | reservedBitsSet
  deriving DecidableEq, Repr

end Sys2Proof
end

