-- ==== Sys2Proof/Machine/State.lean ====
section
/-!
DEFINITION. The state of the block as plain data (R21 with the hidden `busy` of R36), its reset values (R38), and the
reasons a step can stop.
-/

namespace Sys2Proof.Machine

/-- The bytes of BC.buf (R22) as (index, byte) pairs, indices strictly rising (`Memory.wf`). An index that is not
listed holds no byte: storage at and above BC.len is not architectural (R22, U6), and a read of it faults (log 7). -/
abbrev Memory := List Host.Cell

/-- The BitCursor: "the cursor value is the pair (BC.buf with BC.len, BC.off)" (R111). -/
structure BitCursor where
  /-- BC.buf (R22). -/
  buf : Memory
  /-- BC.len, the number of valid bytes; LEN_W = 6 bits (R23). -/
  len : BitVec 6
  /-- BC.off, the stream bit index of the next unread bit; OFF_W = 9 bits (R24). -/
  off : BitVec 9
  deriving DecidableEq, Repr

/-- The outcome of a command (R185). The codes 5, 6 and 7 of the 3-bit register are "never produced" (R33, U13), so
the type has five values. -/
inductive Status where
  | ok
  | outOfBits
  | unexpectedEof
  | insufficientData
  | illegalCommand
  deriving DecidableEq, Repr

/-- A command that was accepted and has not completed: the words sampled at the accepting edge and the clock edges
still to come, the completing one included (R85). The block is busy exactly when there is one (R36). -/
structure Flight where
  cmd       : CmdWord
  wdata     : WData
  remaining : Nat
  deriving DecidableEq, Repr

/-- What the host does next: it presents a request, or raises `rst` (R176 rows 6 and 9, R215). -/
inductive HostInput where
  | request (r : Request)
  | reset
  deriving DecidableEq, Repr

/-- The block's registers (R21), the hidden `busy` (R36), and the two fields of the host's side that the step reads or
writes (log 1, log 10): they are not state of the block (R37). -/
structure State where
  /-- BC.buf, BC.len, BC.off. -/
  bc : BitCursor
  /-- RD (R28). -/
  rd : BitVec 64
  /-- RD_V (R31). -/
  rdV : Bool
  /-- HDR.is_last, HDR.type, HDR.length (R29). -/
  hdr : HeaderRegs
  /-- HDR_V (R31). -/
  hdrV : Bool
  /-- The nine SI registers (R30). -/
  si : Streaminfo
  /-- SI_V (R31). -/
  siV : Bool
  /-- STATUS (R33). -/
  status : Status
  /-- `busy` with the command in flight (R36, R85). -/
  inFlight : Option Flight
  /-- The host's side: what it will present next, oldest first. -/
  hostQueue : List HostInput
  /-- The host's side: the value it combined from the two reads of its last READ128, if there is one (R92). -/
  hostRead128 : Option (BitVec 128)
  deriving DecidableEq, Repr

/-- Reasons the model stops with a fault. -/
inductive Fault where
  /-- Raised by READ and READ128 in a state whose buffer lacks a byte below BC.len, which breaks R25's buffer and which
  no run from reset reaches (`Inv` is kept by every step). Safe: no value is made up. -/
  | bufferByteAbsent
  deriving DecidableEq, Repr

/-- Reasons the model refuses. -/
inductive Refusal where
  /-- Raised by `exec` for an instruction that has no meaning yet. Safe: nothing is said of it. No arm of `exec` raises
  it. -/
  | notModelled (mnemonic : String)
  deriving DecidableEq, Repr

/-- The STREAMINFO registers all zero (R38). -/
def zeroStreaminfo : Streaminfo := ⟨0, 0, 0, 0, 0, 0, 0, 0, 0⟩

/-- The state right after reset (R38): an empty cursor, every register and flag 0, STATUS OK, not busy. The host's
side is empty (log 1): no program is put into it. -/
def State.reset : State where
  bc          := ⟨[], 0, 0⟩
  rd          := 0
  rdV         := false
  hdr         := ⟨false, 0, 0⟩
  hdrV        := false
  si          := zeroStreaminfo
  siV         := false
  status      := .ok
  inFlight    := none
  hostQueue   := []
  hostRead128 := none

end Sys2Proof.Machine
end

