-- ==== Sys2Proof/Machine/Flags.lean ====
section
/-!
DEFINITION. The three valid flags and STATUS (R31, R33): which flag a failing command clears, and the code STATUS
holds. The block has no condition codes (R31).
-/

namespace Sys2Proof.Machine

/-- The number STATUS holds (R33, R185). -/
def Status.code : Status → BitVec 3
  | .ok => 0#3
  | .outOfBits => 1#3
  | .unexpectedEof => 2#3
  | .insufficientData => 3#3
  | .illegalCommand => 4#3

/-- RD_V after a command that ended in `st`: cleared by READ's own error, OutOfBits (R31, R190). -/
def rdVAfter (st : Status) (old : Bool) : Bool := if st = .outOfBits then false else old

/-- HDR_V after a command that ended in `st`: cleared by HDEC's own error, UnexpectedEof (R31, R190). -/
def hdrVAfter (st : Status) (old : Bool) : Bool := if st = .unexpectedEof then false else old

/-- SI_V after a command that ended in `st`: cleared by SIDEC's own error, InsufficientData (R31, R190). -/
def siVAfter (st : Status) (old : Bool) : Bool := if st = .insufficientData then false else old

end Sys2Proof.Machine
end

