-- ==== Sys2Proof/Decode.lean ====
section
/-!
DEFINITION. Decoding and encoding: the command word (R80 to R82), the header word (R71 to R74, and the eighteen rows
of R86), the STREAMINFO payload (R75, R76, R142), the pseudo-command READ128 (R92), and how a word of
spec/opcode_table.json is read. Decoding is total; the one rejection is `DecodeError.reservedBitsSet`.
-/

namespace Sys2Proof

/-! ### Format CMD (R80) -/

/-- The field `op`, bits 31:30. -/
def cmdOp (cmd : CmdWord) : BitVec 2 := cmd.extractLsb' 30 2

/-- The field `zero`, bits 29:24, "must be 0". -/
def cmdZero (cmd : CmdWord) : BitVec 6 := cmd.extractLsb' 24 6

/-- The field `arg`, bits 23:0. -/
def cmdArg (cmd : CmdWord) : Arg := cmd.extractLsb' 0 24

/-- The command word with a zero `zero` field (R80, R91). -/
def commandWord (op : BitVec 2) (arg : Arg) : CmdWord := op ++ 0#6 ++ arg

/-- The command a word stands for; a nonzero `zero` field is rejected (R81, R82). An operand out of R81's range is
decoded: its command answers it with IllegalCommand (R101, R104, R121). READ uses no write data (R84). -/
def decodeCommand (cmd : CmdWord) (wdata : WData) : Except DecodeError Instr :=
  if cmdZero cmd ≠ 0#6 then .error .reservedBitsSet
  else if cmdOp cmd = 0#2 then .ok (.load (cmdArg cmd) wdata)
  else if cmdOp cmd = 1#2 then .ok (.read (cmdArg cmd))
  else if cmdOp cmd = 2#2 then .ok (.hdec (cmdArg cmd) wdata)
  else .ok (.sidec (cmdArg cmd) wdata)

/-! ### Format BLKHDR (R71 to R74) -/

/-- `is_last`, bit 31 of the header word (R71). -/
def hdrIsLast (w : HeaderWord) : Bool := w.getLsbD 31

/-- `type`, bits 30:24 of the header word (R71). -/
def hdrType (w : HeaderWord) : BitVec 7 := w.extractLsb' 24 7

/-- `length`, bits 23:0 of the header word (R71). -/
def hdrLength (w : HeaderWord) : BitVec 24 := w.extractLsb' 0 24

/-- `PackHdr(is_last, type, length)` (R124). -/
def packHdr (isLast : Bool) (type : BitVec 7) (length : BitVec 24) : HeaderWord :=
  BitVec.ofBool isLast ++ type ++ length

/-- The row of format BLKHDR a type code falls under: one row for each of 0 to 6, 7, 126 and 127, and eight rows for
the ranges of codes that share their high bits (R86). -/
def headerRow (code : BitVec 7) (isLast : Bool) (length : BitVec 24) : Instr :=
  if code = 0#7 then .btStreaminfo isLast length
  else if code = 1#7 then .btPadding isLast length
  else if code = 2#7 then .btApplication isLast length
  else if code = 3#7 then .btSeektable isLast length
  else if code = 4#7 then .btVorbiscomment isLast length
  else if code = 5#7 then .btCuesheet isLast length
  else if code = 6#7 then .btPicture isLast length
  else if code = 7#7 then .btReserved7 isLast length
  else if code.extractLsb' 3 4 = 1#4 then .btReserved8to15 (code.extractLsb' 0 3) isLast length
  else if code.extractLsb' 4 3 = 1#3 then .btReserved16to31 (code.extractLsb' 0 4) isLast length
  else if code.extractLsb' 5 2 = 1#2 then .btReserved32to63 (code.extractLsb' 0 5) isLast length
  else if code.extractLsb' 5 2 = 2#2 then .btReserved64to95 (code.extractLsb' 0 5) isLast length
  else if code.extractLsb' 4 3 = 6#3 then .btReserved96to111 (code.extractLsb' 0 4) isLast length
  else if code.extractLsb' 3 4 = 14#4 then .btReserved112to119 (code.extractLsb' 0 3) isLast length
  else if code.extractLsb' 2 5 = 30#5 then .btReserved120to123 (code.extractLsb' 0 2) isLast length
  else if code.extractLsb' 1 6 = 62#6 then .btReserved124to125 (code.extractLsb' 0 1) isLast length
  else if code = 126#7 then .btReserved126 isLast length
  else .btForbidden isLast length

/-- The row a header word matches; every word matches one (R74, R86). -/
def decodeHeader (w : HeaderWord) : Instr := headerRow (hdrType w) (hdrIsLast w) (hdrLength w)

/-- `BlockTypeOf(c)`, total on the 7-bit codes (R73). -/
def blockTypeOf (code : BitVec 7) : BlockType :=
  if code = 0#7 then .streaminfo
  else if code = 1#7 then .padding
  else if code = 2#7 then .application
  else if code = 3#7 then .seektable
  else if code = 4#7 then .vorbisComment
  else if code = 5#7 then .cuesheet
  else if code = 6#7 then .picture
  else if code = 127#7 then .forbidden
  else .reserved code

/-- `CodeOf`, the inverse of `blockTypeOf` (R73). -/
def codeOf : BlockType → BitVec 7
  | .streaminfo => 0#7
  | .padding => 1#7
  | .application => 2#7
  | .seektable => 3#7
  | .vorbisComment => 4#7
  | .cuesheet => 5#7
  | .picture => 6#7
  | .forbidden => 127#7
  | .reserved code => code

/-! ### Format SI272 (R75) -/

/-- The nine fields as bit slices of `P` (R75, column "bits of P"). -/
def unpackSI (p : Payload) : Streaminfo where
  minBlkSize       := p.extractLsb' 256 16
  maxBlkSize       := p.extractLsb' 240 16
  minFrameSize     := p.extractLsb' 216 24
  maxFrameSize     := p.extractLsb' 192 24
  sampleRate       := p.extractLsb' 172 20
  numChannels      := p.extractLsb' 169 3
  bitsPerSample    := p.extractLsb' 164 5
  totalSampleCount := p.extractLsb' 128 36
  md5Checksum      := p.extractLsb' 0 128

/-- `PackSI` (R142): the fields in order, the first in the most significant place. -/
def packSI (r : Streaminfo) : Payload :=
  r.minBlkSize ++ r.maxBlkSize ++ r.minFrameSize ++ r.maxFrameSize ++ r.sampleRate ++ r.numChannels ++
    r.bitsPerSample ++ r.totalSampleCount ++ r.md5Checksum

/-! ### Format CMDx2 (R92) -/

/-- READ128 is the command word of `READ 64` twice (R86). -/
def read128Words : BitVec 64 := 0x4000004040000040#64

/-! ### Requests -/

/-- The instruction a request stands for. -/
def decode : Request → Except DecodeError Instr
  | .command cmd wdata => decodeCommand cmd wdata
  | .header w => .ok (decodeHeader w)
  | .payload p => .ok (.si272 (unpackSI p))
  | .read128 => .ok .read128

/-- The words of an instruction, from the encodings of R80 and R91, R71, R75 and R92. READ uses no write data; its
lanes are 00 (R91). -/
def encode : Instr → Request
  | .load len wdata => .command (commandWord 0#2 len) wdata
  | .read n => .command (commandWord 1#2 n) 0#272
  | .hdec cnt wdata => .command (commandWord 2#2 cnt) wdata
  | .sidec plen wdata => .command (commandWord 3#2 plen) wdata
  | .btStreaminfo isLast length => .header (packHdr isLast 0#7 length)
  | .btPadding isLast length => .header (packHdr isLast 1#7 length)
  | .btApplication isLast length => .header (packHdr isLast 2#7 length)
  | .btSeektable isLast length => .header (packHdr isLast 3#7 length)
  | .btVorbiscomment isLast length => .header (packHdr isLast 4#7 length)
  | .btCuesheet isLast length => .header (packHdr isLast 5#7 length)
  | .btPicture isLast length => .header (packHdr isLast 6#7 length)
  | .btReserved7 isLast length => .header (packHdr isLast 7#7 length)
  | .btReserved8to15 low isLast length => .header (packHdr isLast (1#4 ++ low) length)
  | .btReserved16to31 low isLast length => .header (packHdr isLast (1#3 ++ low) length)
  | .btReserved32to63 low isLast length => .header (packHdr isLast (1#2 ++ low) length)
  | .btReserved64to95 low isLast length => .header (packHdr isLast (2#2 ++ low) length)
  | .btReserved96to111 low isLast length => .header (packHdr isLast (6#3 ++ low) length)
  | .btReserved112to119 low isLast length => .header (packHdr isLast (14#4 ++ low) length)
  | .btReserved120to123 low isLast length => .header (packHdr isLast (30#5 ++ low) length)
  | .btReserved124to125 low isLast length => .header (packHdr isLast (62#6 ++ low) length)
  | .btReserved126 isLast length => .header (packHdr isLast 126#7 length)
  | .btForbidden isLast length => .header (packHdr isLast 127#7 length)
  | .si272 record => .payload (packSI record)
  | .read128 => .read128

/-! ### Words of spec/opcode_table.json -/

/-- The request a word of the table stands for. Its format follows from its width (272 bits a payload, 64 bits the
pseudo-command, 32 bits a command or a header). A command's write data follow its word, from bit 32 up; the table gives
them no bits. DESIGN CHOICE (log 13): a 32-bit word that matches a row of format CMD is read as that command; any other
32-bit word is read as a header word. -/
def tableRequest (nbits w : Nat) : Option Request :=
  if nbits = 272 then some (.payload (BitVec.ofNat 272 w))
  else if nbits = 64 then
    if BitVec.ofNat 64 w = read128Words then some .read128 else none
  else if nbits = 32 then
    if cmdZero (BitVec.ofNat 32 w) = 0#6 then
      some (.command (BitVec.ofNat 32 w) (BitVec.ofNat 272 (w >>> 32)))
    else some (.header (BitVec.ofNat 32 w))
  else none

/-- The instruction the decoder reads from a word of spec/opcode_table.json. -/
def decodeTableWord (nbits w : Nat) : Option Instr :=
  match tableRequest nbits w with
  | none => none
  | some r =>
    match decode r with
    | .ok i => some i
    | .error _ => none

end Sys2Proof
end

