-- ==== Sys2Proof/Machine/Operands.lean ====
section
/-!
DEFINITION. The operands of a command: byte lanes of the write-data port (R84), the bytes LOAD, HDEC and SIDEC take
from it, the header word of four lanes (R71), and big-endian values of byte sequences (R12).
-/

namespace Sys2Proof.Machine

/-- `wdata[i]`, most significant lane first: port bits 8 × (BUF_BYTES − 1 − i) + 7 down to 8 × (BUF_BYTES − 1 − i)
(R84). The payload `P = BE(p[0..33])` has the same lanes (R75). -/
def byteLane (w : BitVec 272) (i : Nat) : Byte := w.extractLsb' (8 * (Config.bufBytes - 1 - i)) 8

/-- `wdata[0 .. len − 1]` (R84). -/
def laneBytes (w : BitVec 272) (len : Nat) : List Byte := (List.range len).map (byteLane w)

/-- The bytes LOAD takes, `wdata[0 .. len − 1]` (R101). -/
def loadBytes (len : Arg) (wdata : WData) : List Byte := laneBytes wdata len.toNat

/-- The 34 bytes SIDEC takes, `p = wdata[0..33]` (R137). -/
def payloadBytes (wdata : WData) : List Byte := laneBytes wdata Config.siBytes

/-- The header word HDEC takes, `W = BE(h[0..3])` with `h = wdata[0..3]` (R121). -/
def headerOperand (wdata : WData) : HeaderWord :=
  byteLane wdata 0 ++ byteLane wdata 1 ++ byteLane wdata 2 ++ byteLane wdata 3

/-- The write data that hold a header word in lanes 0 to 3 and 00 in the others (R91). -/
def headerWData (w : HeaderWord) : WData := w ++ 0#240

/-- The write data that hold a byte sequence from lane 0 on and 00 in the lanes after it (R91); bytes past the last
lane are not presented. -/
def wdataOfBytes (bytes : List Byte) : WData :=
  (List.range Config.bufBytes).foldl (fun acc i => (acc <<< 8) ||| (bytes.getD i 0#8).setWidth 272) 0#272

end Sys2Proof.Machine
end

