-- ==== Sys2Proof/Machine/Ops.lean ====
section
/-!
DEFINITION. The named operations over the buffer, the cursor and the registers that the commands share, and how a
command ends in an error (R190). There is no return from an error: "recovery from an error is simply the next command"
(R197).
-/

namespace Sys2Proof.Machine

/-! ### The buffer -/

/-- The buffer that holds a byte sequence from index `a` on. -/
def Memory.ofBytesFrom (a : Nat) : List Byte → Memory
  | [] => []
  | b :: rest => (a, b) :: Memory.ofBytesFrom (a + 1) rest

/-- `BC.buf <- bytes`, the one write there is: "the whole-buffer replacement" (R14). -/
def Memory.ofBytes (bytes : List Byte) : Memory := Memory.ofBytesFrom 0 bytes

/-- The byte at an index, if the buffer holds one. -/
def Memory.readByte : Memory → Nat → Option Byte
  | [], _ => none
  | (a, b) :: rest, i => if a = i then some b else Memory.readByte rest i

/-- The bytes a buffer holds, in index order. -/
def Memory.bytes (m : Memory) : List Byte := m.map Prod.snd

/-- Indices at and above `lo`, strictly rising. -/
def Memory.risingFrom (lo : Nat) : Memory → Bool
  | [] => true
  | (a, _) :: rest => decide (lo ≤ a) && Memory.risingFrom (a + 1) rest

/-- The canonical form: indices strictly rising. An unlisted index holds no byte, so no entry repeats that. -/
def Memory.wf (m : Memory) : Bool := Memory.risingFrom 0 m

/-- `StreamBit(b, k) = (b[k div 8] div 2^(7 − (k mod 8))) mod 2` (R13). -/
def Memory.streamBit (m : Memory) (k : Nat) : Option Bool :=
  match m.readByte (k / 8) with
  | none => none
  | some b => some (b.getLsbD (7 - k % 8))

/-- `MemRead(k, n)` (R14): `n` bits from stream bit `k` on, the first one most significant. -/
def Memory.readBits (m : Memory) (k : Nat) : Nat → Option Nat
  | 0 => some 0
  | n + 1 =>
    match Memory.readBits m k n, m.streamBit (k + n) with
    | some v, some b => some (2 * v + b.toNat)
    | _, _ => none

/-! ### The cursor -/

/-- Bind a byte buffer to the cursor and set the bit offset to 0 (R101). -/
def BitCursor.wrap (bytes : List Byte) : BitCursor where
  buf := Memory.ofBytes bytes
  len := BitVec.ofNat 6 bytes.length
  off := 0

/-- The remaining bits, `8 × BC.len − BC.off` (R103). -/
def BitCursor.remaining (c : BitCursor) : Nat := 8 * c.len.toNat - c.off.toNat

/-- The body of READ on a cursor (R104): the next `n` bits, and the cursor `n` bits further. None when `n` exceeds the
remaining bits, or when the buffer lacks one of the bytes. -/
def BitCursor.read (n : Nat) (c : BitCursor) : Option (Nat × BitCursor) :=
  if c.remaining < n then none
  else
    match c.buf.readBits c.off.toNat n with
    | none => none
    | some v => some (v, { c with off := BitVec.ofNat 9 (c.off.toNat + n) })

/-! ### The registers -/

/-- Replace the cursor (BC.buf, BC.len, BC.off). -/
def State.setCursor (s : State) (c : BitCursor) : State := { s with bc := c }

/-- A successful READ's result: RD and its flag (R28). -/
def State.setRd (s : State) (v : BitVec 64) : State := { s with rd := v, rdV := true }

/-- A successful HDEC's result: the HDR registers and their flag (R29). -/
def State.setHdr (s : State) (h : HeaderRegs) : State := { s with hdr := h, hdrV := true }

/-- A successful SIDEC's result: the SI registers and their flag (R30). -/
def State.setSi (s : State) (r : Streaminfo) : State := { s with si := r, siV := true }

/-- Every command writes STATUS when it completes (R33). -/
def State.setStatus (s : State) (st : Status) : State := { s with status := st }

/-- Accept a command, or leave flight (R36, R85). -/
def State.setInFlight (s : State) (f : Option Flight) : State := { s with inFlight := f }

/-- What the host presents next (log 1). -/
def State.setHostQueue (s : State) (q : List HostInput) : State := { s with hostQueue := q }

/-- The host's value of its last READ128 (R92). -/
def State.setHostRead128 (s : State) (v : Option (BitVec 128)) : State := { s with hostRead128 := v }

/-- The block is busy between accepting a command and completing it (R36). -/
def State.busy (s : State) : Bool := s.inFlight.isSome

/-! ### How a command ends -/

/-- Error entry (R190): "STATUS <- the code; for codes 1, 2 and 3 the valid flag of the command's own unit <- 0 (RD_V,
HDR_V, SI_V respectively); nothing else." There is no vector, no saved state and no mode. -/
def raise (st : Status) (s : State) : State :=
  { s with
    rdV := rdVAfter st s.rdV
    hdrV := hdrVAfter st s.hdrV
    siV := siVAfter st s.siV
    status := st }

/-- READ's body (R104): OutOfBits when `n` exceeds the remaining bits; else RD, RD_V, BC.off and STATUS are written. -/
def readAtCursor (n : Nat) (s : State) : Host.Outcome State Fault Refusal :=
  if s.bc.remaining < n then .next (raise .outOfBits s)
  else
    match s.bc.read n with
    | none => .fault .bufferByteAbsent
    | some (v, c) => .next (((s.setCursor c).setRd (BitVec.ofNat 64 v)).setStatus .ok)

/-- The three fields of a header word (R72, R121). -/
def headerRegsOf (w : HeaderWord) : HeaderRegs := ⟨hdrIsLast w, hdrType w, hdrLength w⟩

/-- HDEC's success (R121): the three HDR registers, HDR_V and STATUS. -/
def latchHeader (w : HeaderWord) (s : State) : State := (s.setHdr (headerRegsOf w)).setStatus .ok

/-- The ten reads of SIDEC in their order (R137), `md5_checksum` from two halves, the high half first (R92, R140). -/
def readStreaminfo (c : BitCursor) : Option (Streaminfo × BitCursor) := do
  let (f1, c) ← c.read 16
  let (f2, c) ← c.read 16
  let (f3, c) ← c.read 24
  let (f4, c) ← c.read 24
  let (f5, c) ← c.read 20
  let (f6, c) ← c.read 3
  let (f7, c) ← c.read 5
  let (f8, c) ← c.read 36
  let (hi, c) ← c.read 64
  let (lo, c) ← c.read 64
  return ({ minBlkSize       := BitVec.ofNat 16 f1
            maxBlkSize       := BitVec.ofNat 16 f2
            minFrameSize     := BitVec.ofNat 24 f3
            maxFrameSize     := BitVec.ofNat 24 f4
            sampleRate       := BitVec.ofNat 20 f5
            numChannels      := BitVec.ofNat 3 f6
            bitsPerSample    := BitVec.ofNat 5 f7
            totalSampleCount := BitVec.ofNat 36 f8
            md5Checksum      := BitVec.ofNat 128 (hi * 2 ^ 64 + lo) }, c)

/-- SIDEC's success (R137): the block's one cursor is bound to the 34 bytes and read to its end; the nine SI registers,
SI_V and STATUS are written. No read fails (R138); the fault stands for the cases R138 rules out. -/
def decodePayload (bytes : List Byte) (s : State) : Host.Outcome State Fault Refusal :=
  match readStreaminfo (BitCursor.wrap bytes) with
  | none => .fault .bufferByteAbsent
  | some (r, c) => .next (((s.setCursor c).setSi r).setStatus .ok)

/-- Go on with the next state; a fault or a refusal ends the sequence. -/
def andThen {α β : Type} (o : Host.Outcome α Fault Refusal) (f : α → Host.Outcome β Fault Refusal) :
    Host.Outcome β Fault Refusal :=
  match o with
  | .next a => f a
  | .fault r => .fault r
  | .refused r => .refused r

end Sys2Proof.Machine
end

