-- ==== Sys2Proof/WellFormed.lean ====
section
/-!
DEFINITION. Legal operand values (R81) as a check on instructions, and the values of the variant BlockType (R73).
-/

namespace Sys2Proof

/-- R81: LOAD's arg, 0 ≤ len ≤ BUF_BYTES. -/
def legalLoadLen (len : Arg) : Bool := decide (len.toNat ≤ Config.bufBytes)

/-- R81: READ's arg, 1 ≤ n ≤ 64. -/
def legalReadWidth (n : Arg) : Bool := decide (Config.minRead ≤ n.toNat ∧ n.toNat ≤ Config.maxRead)

/-- R81: HDEC's arg, 0 ≤ cnt ≤ 4. -/
def legalHdecCount (cnt : Arg) : Bool := decide (cnt.toNat ≤ Config.hdrBytes)

/-- R81: SIDEC's arg, every 24-bit value. -/
def legalSidecLen (plen : Arg) : Bool := decide (plen.toNat ≤ Config.lengthMax)

/-- R73: "A `Reserved(c)` with c outside 7..126 is not a value of the variant." -/
def BlockType.wellFormed : BlockType → Bool
  | .reserved c => decide (7 ≤ c.toNat ∧ c.toNat ≤ 126)
  | _ => true

/-- The operands of a command are legal (R81). Every header word, every payload and READ128 are well formed: neither
format has a reserved bit (R71, R75) and every type code is decoded (R74). -/
def Instr.wellFormed : Instr → Bool
  | .load len _ => legalLoadLen len
  | .read n => legalReadWidth n
  | .hdec cnt _ => legalHdecCount cnt
  | .sidec plen _ => legalSidecLen plen
  | .btStreaminfo _ _ => true
  | .btPadding _ _ => true
  | .btApplication _ _ => true
  | .btSeektable _ _ => true
  | .btVorbiscomment _ _ => true
  | .btCuesheet _ _ => true
  | .btPicture _ _ => true
  | .btReserved7 _ _ => true
  | .btReserved8to15 _ _ _ => true
  | .btReserved16to31 _ _ _ => true
  | .btReserved32to63 _ _ _ => true
  | .btReserved64to95 _ _ _ => true
  | .btReserved96to111 _ _ _ => true
  | .btReserved112to119 _ _ _ => true
  | .btReserved120to123 _ _ _ => true
  | .btReserved124to125 _ _ _ => true
  | .btReserved126 _ _ => true
  | .btForbidden _ _ => true
  | .si272 _ => true
  | .read128 => true

end Sys2Proof
end

