-- ==== Sys2Proof/Machine/BlockHeader.lean ====
section
/-!
DEFINITION. The BlockHeaderDecoder unit: HDEC (R121), and one meaning for each row of format BLKHDR: the host presents
that header word to BHD with all four bytes available (R70, R121; log 8). "For the block no type code is illegal" (R74).
-/

namespace Sys2Proof.Machine

/-- HDEC: decode a metadata block header (R121). -/
def execHdec (cnt : Arg) (wdata : WData) (s : State) : Host.Outcome State Fault Refusal :=
  if legalHdecCount cnt then
    if cnt.toNat < Config.hdrBytes then .next (raise .unexpectedEof s)
    else .next (latchHeader (headerOperand wdata) s)
  else .next (raise .illegalCommand s)

/-- A header word of block type Streaminfo (R73, R121). -/
def execBtStreaminfo (isLast : Bool) (length : BitVec 24) (s : State) :
    Host.Outcome State Fault Refusal :=
  .next (latchHeader (packHdr isLast 0#7 length) s)

/-- A header word of block type Padding (R73, R121). -/
def execBtPadding (isLast : Bool) (length : BitVec 24) (s : State) :
    Host.Outcome State Fault Refusal :=
  .next (latchHeader (packHdr isLast 1#7 length) s)

/-- A header word of block type Application (R73, R121). -/
def execBtApplication (isLast : Bool) (length : BitVec 24) (s : State) :
    Host.Outcome State Fault Refusal :=
  .next (latchHeader (packHdr isLast 2#7 length) s)

/-- A header word of block type Seektable (R73, R121). -/
def execBtSeektable (isLast : Bool) (length : BitVec 24) (s : State) :
    Host.Outcome State Fault Refusal :=
  .next (latchHeader (packHdr isLast 3#7 length) s)

/-- A header word of block type VorbisComment (R73, R121). -/
def execBtVorbiscomment (isLast : Bool) (length : BitVec 24) (s : State) :
    Host.Outcome State Fault Refusal :=
  .next (latchHeader (packHdr isLast 4#7 length) s)

/-- A header word of block type Cuesheet (R73, R121). -/
def execBtCuesheet (isLast : Bool) (length : BitVec 24) (s : State) :
    Host.Outcome State Fault Refusal :=
  .next (latchHeader (packHdr isLast 5#7 length) s)

/-- A header word of block type Picture (R73, R121). -/
def execBtPicture (isLast : Bool) (length : BitVec 24) (s : State) :
    Host.Outcome State Fault Refusal :=
  .next (latchHeader (packHdr isLast 6#7 length) s)

/-- A header word of block type Reserved(7) (R73, R121). -/
def execBtReserved7 (isLast : Bool) (length : BitVec 24) (s : State) :
    Host.Outcome State Fault Refusal :=
  .next (latchHeader (packHdr isLast 7#7 length) s)

/-- A header word of block type Reserved(8..15) (R73, R121). -/
def execBtReserved8to15 (low : BitVec 3) (isLast : Bool) (length : BitVec 24) (s : State) :
    Host.Outcome State Fault Refusal :=
  .next (latchHeader (packHdr isLast (1#4 ++ low) length) s)

/-- A header word of block type Reserved(16..31) (R73, R121). -/
def execBtReserved16to31 (low : BitVec 4) (isLast : Bool) (length : BitVec 24) (s : State) :
    Host.Outcome State Fault Refusal :=
  .next (latchHeader (packHdr isLast (1#3 ++ low) length) s)

/-- A header word of block type Reserved(32..63) (R73, R121). -/
def execBtReserved32to63 (low : BitVec 5) (isLast : Bool) (length : BitVec 24) (s : State) :
    Host.Outcome State Fault Refusal :=
  .next (latchHeader (packHdr isLast (1#2 ++ low) length) s)

/-- A header word of block type Reserved(64..95) (R73, R121). -/
def execBtReserved64to95 (low : BitVec 5) (isLast : Bool) (length : BitVec 24) (s : State) :
    Host.Outcome State Fault Refusal :=
  .next (latchHeader (packHdr isLast (2#2 ++ low) length) s)

/-- A header word of block type Reserved(96..111) (R73, R121). -/
def execBtReserved96to111 (low : BitVec 4) (isLast : Bool) (length : BitVec 24) (s : State) :
    Host.Outcome State Fault Refusal :=
  .next (latchHeader (packHdr isLast (6#3 ++ low) length) s)

/-- A header word of block type Reserved(112..119) (R73, R121). -/
def execBtReserved112to119 (low : BitVec 3) (isLast : Bool) (length : BitVec 24) (s : State) :
    Host.Outcome State Fault Refusal :=
  .next (latchHeader (packHdr isLast (14#4 ++ low) length) s)

/-- A header word of block type Reserved(120..123) (R73, R121). -/
def execBtReserved120to123 (low : BitVec 2) (isLast : Bool) (length : BitVec 24) (s : State) :
    Host.Outcome State Fault Refusal :=
  .next (latchHeader (packHdr isLast (30#5 ++ low) length) s)

/-- A header word of block type Reserved(124..125) (R73, R121). -/
def execBtReserved124to125 (low : BitVec 1) (isLast : Bool) (length : BitVec 24) (s : State) :
    Host.Outcome State Fault Refusal :=
  .next (latchHeader (packHdr isLast (62#6 ++ low) length) s)

/-- A header word of block type Reserved(126) (R73, R121). -/
def execBtReserved126 (isLast : Bool) (length : BitVec 24) (s : State) :
    Host.Outcome State Fault Refusal :=
  .next (latchHeader (packHdr isLast 126#7 length) s)

/-- A header word of block type Forbidden (R73, R121). -/
def execBtForbidden (isLast : Bool) (length : BitVec 24) (s : State) :
    Host.Outcome State Fault Refusal :=
  .next (latchHeader (packHdr isLast 127#7 length) s)

end Sys2Proof.Machine
end

