-- ==== Sys2Proof/Machine/Cursor.lean ====
section
/-!
DEFINITION. The BitCursor unit: LOAD (R101), READ (R104), and the pseudo-command READ128 (R92). A word whose `zero`
field is not 0 never reaches a meaning: the decoder rejects it, and the step ends it in IllegalCommand.
-/

namespace Sys2Proof.Machine

/-- LOAD: bind a byte buffer to the cursor and set the bit offset to 0 (R101). -/
def execLoad (len : Arg) (wdata : WData) (s : State) : Host.Outcome State Fault Refusal :=
  if legalLoadLen len then .next ((s.setCursor (BitCursor.wrap (loadBytes len wdata))).setStatus .ok)
  else .next (raise .illegalCommand s)

/-- READ: return the next `n` bits as an unsigned integer and advance (R104). -/
def execRead (n : Arg) (s : State) : Host.Outcome State Fault Refusal :=
  if legalReadWidth n then readAtCursor n.toNat s
  else .next (raise .illegalCommand s)

/-- READ128: `READ 64` twice, the first half the more significant (R92). "If the first READ fails with OutOfBits the
second is not issued; if the first succeeds and the second fails, 64 bits have been consumed and no value results." The
value is combined by the issuer and is kept on the host's side (log 10). -/
def execRead128 (s : State) : Host.Outcome State Fault Refusal :=
  andThen (readAtCursor 64 s) fun s₁ =>
    if s₁.status = .ok then
      andThen (readAtCursor 64 s₁) fun s₂ =>
        .next (s₂.setHostRead128 (if s₂.status = .ok then some (s₁.rd ++ s₂.rd) else none))
    else .next (s₁.setHostRead128 none)

end Sys2Proof.Machine
end

