-- ==== Sys2Proof/Machine/StreaminfoDecoder.lean ====
section
/-!
DEFINITION. The StreaminfoDecoder unit: SIDEC (R137), and the row of format SI272: the host presents that payload to
SID with 34 bytes available (R70, R137; log 9).
-/

namespace Sys2Proof.Machine

/-- SIDEC: decode a STREAMINFO payload (R137). -/
def execSidec (plen : Arg) (wdata : WData) (s : State) : Host.Outcome State Fault Refusal :=
  if legalSidecLen plen then
    if plen.toNat < Config.siBytes then .next (raise .insufficientData s)
    else decodePayload (payloadBytes wdata) s
  else .next (raise .illegalCommand s)

/-- A STREAMINFO payload with the given nine fields (R75, R137). -/
def execSi272 (record : Streaminfo) (s : State) : Host.Outcome State Fault Refusal :=
  decodePayload (payloadBytes (packSI record)) s

end Sys2Proof.Machine
end

