-- ==== Sys2Proof/Machine/Dispatch.lean ====
section
/-!
DEFINITION. One arm for each row of spec/opcode_table.json, one direct call of its meaning.
-/

namespace Sys2Proof.Machine

def exec (i : Instr) (s : State) : Host.Outcome State Fault Refusal :=
  match i with
  -- Format CMD (R80): the four commands of the block.
  | .load len wdata => Sys2Proof.Machine.execLoad len wdata s
  | .read n => Sys2Proof.Machine.execRead n s
  | .hdec cnt wdata => Sys2Proof.Machine.execHdec cnt wdata s
  | .sidec plen wdata => Sys2Proof.Machine.execSidec plen wdata s
  -- Format BLKHDR (R71, R73): header words.
  | .btStreaminfo isLast length => Sys2Proof.Machine.execBtStreaminfo isLast length s
  | .btPadding isLast length => Sys2Proof.Machine.execBtPadding isLast length s
  | .btApplication isLast length => Sys2Proof.Machine.execBtApplication isLast length s
  | .btSeektable isLast length => Sys2Proof.Machine.execBtSeektable isLast length s
  | .btVorbiscomment isLast length => Sys2Proof.Machine.execBtVorbiscomment isLast length s
  | .btCuesheet isLast length => Sys2Proof.Machine.execBtCuesheet isLast length s
  | .btPicture isLast length => Sys2Proof.Machine.execBtPicture isLast length s
  | .btReserved7 isLast length => Sys2Proof.Machine.execBtReserved7 isLast length s
  | .btReserved8to15 low isLast length => Sys2Proof.Machine.execBtReserved8to15 low isLast length s
  | .btReserved16to31 low isLast length => Sys2Proof.Machine.execBtReserved16to31 low isLast length s
  | .btReserved32to63 low isLast length => Sys2Proof.Machine.execBtReserved32to63 low isLast length s
  | .btReserved64to95 low isLast length => Sys2Proof.Machine.execBtReserved64to95 low isLast length s
  | .btReserved96to111 low isLast length => Sys2Proof.Machine.execBtReserved96to111 low isLast length s
  | .btReserved112to119 low isLast length => Sys2Proof.Machine.execBtReserved112to119 low isLast length s
  | .btReserved120to123 low isLast length => Sys2Proof.Machine.execBtReserved120to123 low isLast length s
  | .btReserved124to125 low isLast length => Sys2Proof.Machine.execBtReserved124to125 low isLast length s
  | .btReserved126 isLast length => Sys2Proof.Machine.execBtReserved126 isLast length s
  | .btForbidden isLast length => Sys2Proof.Machine.execBtForbidden isLast length s
  -- Format SI272 (R75) and format CMDx2 (R92).
  | .si272 record => Sys2Proof.Machine.execSi272 record s
  | .read128 => Sys2Proof.Machine.execRead128 s

end Sys2Proof.Machine
end

