-- ==== Sys2Proof/Machine/Fetch.lean ====
section
/-!
DEFINITION. Where the next instruction comes from: the block fetches nothing (R26), the host supplies every command.
Its inputs stand in `State.hostQueue`, oldest first (log 1). How a request is decoded and run, what reset does, and
one step: one complete command (R20).
-/

namespace Sys2Proof.Machine

/-- Decode a request and run it to completion; a word with a nonzero `zero` field ends in IllegalCommand, before any
other check (R189, R193). -/
def runRequest (r : Request) (s : State) : Host.Outcome State Fault Refusal :=
  match decode r with
  | .ok i => exec i s
  | .error .reservedBitsSet => .next (raise .illegalCommand s)

/-- `rst` = 1 at a rising edge: all state takes the reset values of R38 and a command in flight is abandoned (R215,
R216). The host's side is not reset. -/
def applyReset (s : State) : State :=
  { State.reset with hostQueue := s.hostQueue, hostRead128 := s.hostRead128 }

/-- The command in flight completes (R85). -/
def completeFlight (f : Flight) (s : State) : Host.Outcome State Fault Refusal :=
  runRequest (.command f.cmd f.wdata) (s.setInFlight none)

/-- One step. Reset comes before everything (R215); a command in flight completes before the next is accepted (R60,
R220); else the next request is accepted and completes (R20). With nothing presented, "an idle block simply holds
cmd_ready = 1 and its registers" (R202; log 2). -/
def nextStep (s : State) : Host.Outcome State Fault Refusal :=
  match s.hostQueue, s.inFlight with
  | .reset :: rest, _ => .next (applyReset (s.setHostQueue rest))
  | _, some f => completeFlight f s
  | .request r :: rest, none => runRequest r (s.setHostQueue rest)
  | [], none => .next s

/-- Put a request where the step takes its next one: at the front of the queue of an idle block. -/
def placeRequest (s : State) (r : Request) : State :=
  (s.setInFlight none).setHostQueue (.request r :: s.hostQueue)

/-- Put the instruction of a word of spec/opcode_table.json there (log 13); a word of no row places nothing. -/
def placeTableWord (s : State) (nbits w : Nat) : State :=
  match tableRequest nbits w with
  | some r => placeRequest s r
  | none => s

end Sys2Proof.Machine
end

