-- ==== Sys2Proof/Machine/Iterator.lean ====
section
/-!
DEFINITION. The host of the source's system, which drives the block through its command port: MagicValidator (R160),
BlockIterator (R163 to R170), the byte source and its handling (R171 to R174), and how it maps onto commands (R175).
"The rules of this file bind a model of the host; they place no requirement on the block itself" (45_host_context.md).
What the source leaves to a host is set to the spec's defaults (log 14).
-/

namespace Sys2Proof.Machine

/-- What the byte source does past the bytes listed: it ends, a read of it fails (R171, R173), or it never ends (R227)
and gives one byte sequence, `first` and `others`, over and over. DESIGN CHOICE (log 18): an endless source is one that
repeats in the end. -/
inductive SourceEnd where
  | eof
  | ioFault
  | repeats (first : Byte) (others : List Byte)
  deriving DecidableEq, Repr

/-- The byte source, "read strictly sequentially and forward-only" (R64, R173): the bytes still to come, the ones listed
and then what `ending` says. A read that comes up short, faults or yields a wrong magic does not advance it (log 17). -/
structure ByteSource where
  bytes  : List Byte
  ending : SourceEnd
  deriving DecidableEq, Repr

/-- The result of reading exactly so many bytes (R166: "read-until-exact-length-or-error"). -/
inductive SourceRead where
  | got (found : List Byte) (rest : ByteSource)
  | short (found : List Byte)
  | ioFault
  deriving DecidableEq, Repr

/-- So many repetitions of a byte sequence. -/
def repeatBytes (unit : List Byte) : Nat → List Byte
  | 0 => []
  | k + 1 => unit ++ repeatBytes unit k

/-- Read exactly `n` bytes. An endless source is listed further, by as many repetitions as reach `n` bytes. DESIGN CHOICE
(log 19): a read that obtains fewer bytes and then meets an I/O fault answers the fault, not the short read. -/
def ByteSource.readExact (src : ByteSource) (n : Nat) : SourceRead :=
  if n ≤ src.bytes.length then .got (src.bytes.take n) { src with bytes := src.bytes.drop n }
  else
    match src.ending with
    | .eof => .short src.bytes
    | .ioFault => .ioFault
    | .repeats first others =>
      let listed := src.bytes ++ repeatBytes (first :: others) (n / (first :: others).length + 1)
      .got (listed.take n) { src with bytes := listed.drop n }

/-- The errors of the system (R171). `outOfBits` and `illegalCommand` are block statuses a host that follows the
source never meets (R186, R176 row 8). -/
inductive HostError where
  | unexpectedEof
  | badMagic (found : List Byte)
  | unexpectedBlockType (code : BitVec 7)
  | truncatedHeader
  | truncatedPayload
  | insufficientData
  | outOfBits
  | illegalCommand
  | ioFault
  deriving DecidableEq, Repr

/-- The error a failing block status stands for (R171, R185). -/
def errorOfStatus : Status → Option HostError
  | .ok => none
  | .outOfBits => some .outOfBits
  | .unexpectedEof => some .unexpectedEof
  | .insufficientData => some .insufficientData
  | .illegalCommand => some .illegalCommand

/-- The signature bytes, ASCII "fLaC" (R160). -/
def magicSignature : List Byte := [0x66, 0x4C, 0x61, 0x43]

/-- MagicValidator (R160): all four bytes, in order, exact. -/
def validateMagic (src : ByteSource) : Except HostError ByteSource :=
  match src.readExact 4 with
  | .got found rest => if found = magicSignature then .ok rest else .error (.badMagic found)
  | .short _ => .error .unexpectedEof
  | .ioFault => .error .ioFault

/-- A BlockHeader with the Streaminfo record attached where its type is Streaminfo (R168, R170). -/
structure EmittedBlock where
  isLast     : Bool
  blockType  : BlockType
  length     : BitVec 24
  streaminfo : Option Streaminfo
  deriving DecidableEq, Repr

/-- Where the host stands: before the magic check, the iterator's RUNNING and DONE (R163), or stopped at its first
error (R172). -/
inductive Phase where
  | validating
  | running
  | done
  | failed (e : HostError)
  deriving DecidableEq, Repr

/-- The host beside one instance of the block (R173, R203). -/
structure ParseSystem where
  block      : State
  source     : ByteSource
  /-- "acquired before the first read and released on every exit path" (R173). -/
  sourceOpen : Bool
  phase      : Phase
  /-- The ParsedStream (R170), oldest block first. -/
  parsed     : List EmittedBlock
  deriving DecidableEq, Repr

/-- A parse at its start: the source is acquired, the block was reset before its first command (R176 row 4, R219). -/
def ParseSystem.start (src : ByteSource) : ParseSystem := ⟨State.reset, src, true, .validating, []⟩

/-- "the first error aborts the loop and is returned to the caller" (R172); the source is released (R173). Where the byte
source stands is left as it is: DESIGN CHOICE (log 17) after a read that came up short, faulted or yielded a wrong
magic. -/
def ParseSystem.fail (h : ParseSystem) (e : HostError) : ParseSystem :=
  { h with phase := .failed e, sourceOpen := false }

/-- Present one command to the block and let it complete (R20, R175). -/
def issueCommand (cmd : CmdWord) (wdata : WData) (b : State) : Host.Outcome State Fault Refusal :=
  step (b.setHostQueue [.request (.command cmd wdata)])

/-- Steps 5 and 6 (R168): emit the block; after the last one, DONE and the source is released. -/
def ParseSystem.emit (h : ParseSystem) (record : Option Streaminfo) : ParseSystem :=
  { h with
    parsed := h.parsed ++
      [⟨h.block.hdr.isLast, blockTypeOf h.block.hdr.type, h.block.hdr.length, record⟩]
    phase := if h.block.hdr.isLast then .done else .running
    sourceOpen := !h.block.hdr.isLast }

/-- Steps 3 and 4 (R166, R167): read exactly `length` payload bytes; a Streaminfo payload goes to SIDEC with plen the
bytes obtained and its first 34 bytes (R136, R175), any other is discarded. A short or faulting read leaves the source
where it was: DESIGN CHOICE (log 17). -/
def ParseSystem.readPayload (h : ParseSystem) : Host.Outcome ParseSystem Fault Refusal :=
  match h.source.readExact h.block.hdr.length.toNat with
  | .ioFault => .next (h.fail .ioFault)
  | .short _ => .next (h.fail .truncatedPayload)
  | .got payload rest =>
    if h.block.hdr.type = 0#7 then
      andThen (issueCommand (commandWord 3#2 h.block.hdr.length) (wdataOfBytes (payload.take Config.siBytes)) h.block)
        fun b =>
          match errorOfStatus b.status with
          | some e => .next (({ h with block := b, source := rest } : ParseSystem).fail e)
          | none => .next (({ h with block := b, source := rest } : ParseSystem).emit (some b.si))
    else .next (({ h with source := rest } : ParseSystem).emit none)

/-- One turn of the loop, steps 1 and 2 and then the payload (R164, R165): four header bytes go to HDEC; a Reserved
or Forbidden type code is fatal, its payload unread. A short or faulting read of the header leaves the source where it
was: DESIGN CHOICE (log 17). -/
def ParseSystem.iterate (h : ParseSystem) : Host.Outcome ParseSystem Fault Refusal :=
  match h.source.readExact Config.hdrBytes with
  | .ioFault => .next (h.fail .ioFault)
  | .short _ => .next (h.fail .truncatedHeader)
  | .got header rest =>
    andThen (issueCommand (commandWord 2#2 4#24) (wdataOfBytes header) h.block) fun b =>
      match errorOfStatus b.status with
      | some e => .next (({ h with block := b, source := rest } : ParseSystem).fail e)
      | none =>
        if 7 ≤ b.hdr.type.toNat then
          .next (({ h with block := b, source := rest } : ParseSystem).fail (.unexpectedBlockType b.hdr.type))
        else ({ h with block := b, source := rest } : ParseSystem).readPayload

/-- One step of the host: the magic check, or one turn of the loop. "After DONE the host reads nothing more" (R168),
and after an error neither (R172). A magic check that fails leaves the source where it was: DESIGN CHOICE (log 17). -/
def ParseSystem.step (h : ParseSystem) : Host.Outcome ParseSystem Fault Refusal :=
  match h.phase with
  | .validating =>
    match validateMagic h.source with
    | .ok rest => .next { h with source := rest, phase := .running }
    | .error e => .next (h.fail e)
  | .running => h.iterate
  | .done => .next h
  | .failed _ => .next h

/-- So many steps of the host. -/
def ParseSystem.run : Nat → ParseSystem → Host.Outcome ParseSystem Fault Refusal
  | 0, h => .next h
  | k + 1, h => andThen h.step (ParseSystem.run k)

/-- The run has ended: DONE or the first error (R228). -/
def ParseSystem.ended (h : ParseSystem) : Bool :=
  match h.phase with
  | .done => true
  | .failed _ => true
  | .validating => false
  | .running => false

/-- What the parse returns (R172, R174): the decoded records, or the error alone. -/
def ParseSystem.result (h : ParseSystem) : Option (Except HostError (List EmittedBlock)) :=
  match h.phase with
  | .done => some (.ok h.parsed)
  | .failed e => some (.error e)
  | .validating => none
  | .running => none

/-- Process exit (R174): zero on success, "non-zero if any fatal error is returned"; the number is not given (N26). -/
def ParseSystem.exitZero (h : ParseSystem) : Option Bool :=
  match h.phase with
  | .done => some true
  | .failed _ => some false
  | .validating => none
  | .running => none

end Sys2Proof.Machine
end

