-- ==== Sys2Proof/Machine/Ports.lean ====
section
/-!
DEFINITION. The block at its ports, one rising clock edge at a time: reset (R215, R216), the handshake (R85, R220,
R221) and the output ports (R83). It runs the same meanings as the step; LATENCY is the open parameter of
`Config.latency` (log 11).
-/

namespace Sys2Proof.Machine

/-- The input ports as sampled at one rising edge of `clk` (R83). -/
structure PortIn where
  rst      : Bool
  cmdValid : Bool
  cmd      : CmdWord
  wdata    : WData
  deriving DecidableEq, Repr

/-- The output ports (R83). BC.buf has none. -/
structure PortOut where
  cmdReady           : Bool
  rspValid           : Bool
  status             : BitVec 3
  bcLen              : BitVec 6
  bcOff              : BitVec 9
  rd                 : BitVec 64
  rdV                : Bool
  hdrIsLast          : Bool
  hdrType            : BitVec 7
  hdrLength          : BitVec 24
  hdrV               : Bool
  siMinBlkSize       : BitVec 16
  siMaxBlkSize       : BitVec 16
  siMinFrameSize     : BitVec 24
  siMaxFrameSize     : BitVec 24
  siSampleRate       : BitVec 20
  siNumChannels      : BitVec 3
  siBitsPerSample    : BitVec 5
  siTotalSampleCount : BitVec 36
  siMd5Checksum      : BitVec 128
  siV                : Bool
  deriving DecidableEq, Repr

/-- "Every register of rule R21 drives an output port of the same name at all times" (R27); `cmd_ready` = not busy
(R83). `rspValid` says whether the edge just taken completed a command. -/
def outputPorts (s : State) (rspValid : Bool) : PortOut where
  cmdReady           := !s.busy
  rspValid           := rspValid
  status             := s.status.code
  bcLen              := s.bc.len
  bcOff              := s.bc.off
  rd                 := s.rd
  rdV                := s.rdV
  hdrIsLast          := s.hdr.isLast
  hdrType            := s.hdr.type
  hdrLength          := s.hdr.length
  hdrV               := s.hdrV
  siMinBlkSize       := s.si.minBlkSize
  siMaxBlkSize       := s.si.maxBlkSize
  siMinFrameSize     := s.si.minFrameSize
  siMaxFrameSize     := s.si.maxFrameSize
  siSampleRate       := s.si.sampleRate
  siNumChannels      := s.si.numChannels
  siBitsPerSample    := s.si.bitsPerSample
  siTotalSampleCount := s.si.totalSampleCount
  siMd5Checksum      := s.si.md5Checksum
  siV                := s.siV

/-- One rising edge of `clk` (R85, R215). `rst` = 1: reset, no command is accepted. Idle: a command is accepted when
`cmd_valid` = 1, and its words are sampled. Busy: the inputs are ignored; at the LATENCY-th edge after acceptance the
command completes, and the block can accept again from the next edge. -/
def clockEdge (i : PortIn) (s : State) : Host.Outcome State Fault Refusal :=
  if i.rst then .next (applyReset s)
  else
    match s.inFlight with
    | none =>
      if i.cmdValid then .next (s.setInFlight (some ⟨i.cmd, i.wdata, Config.latency i.cmd i.wdata⟩))
      else .next s
    | some f =>
      if f.remaining ≤ 1 then completeFlight f s
      else .next (s.setInFlight (some { f with remaining := f.remaining - 1 }))

/-- `rsp_valid` in the clock after an edge: "one-clock pulse: the command just completed" (R83, R85). -/
def rspAfterEdge (i : PortIn) (s : State) : Bool :=
  !i.rst &&
    match s.inFlight with
    | none => false
    | some f => decide (f.remaining ≤ 1)

/-- A sequence of rising edges, oldest input first. -/
def clockEdges : List PortIn → State → Host.Outcome State Fault Refusal
  | [], s => .next s
  | i :: rest, s => andThen (clockEdge i s) (clockEdges rest)

end Sys2Proof.Machine
end

