-- ==== Sys2Proof/Safety.lean ====
section
/-!
DEFINITION. The terms claims are stated in: big-endian values, stream bits and bit fields of a byte sequence written
out as the spec's sums (R12, R13, R14), the cursor's invariant (R25), and what a safe step is.
-/

namespace Sys2Proof

/-- `BE(b) = Σ_{i=0}^{L−1} b[i] × 2^(8 × (L−1−i))` (R12). -/
def bigEndian (b : List Byte) : Nat :=
  ((List.range b.length).map fun i => (b.getD i 0#8).toNat * 2 ^ (8 * (b.length - 1 - i))).sum

/-- `StreamBit(b, k) = (b[k div 8] div 2^(7 − (k mod 8))) mod 2` (R13). -/
def streamBitOf (b : List Byte) (k : Nat) : Nat := (b.getD (k / 8) 0#8).toNat / 2 ^ (7 - k % 8) % 2

/-- `MemRead(k, n) = Σ_{i=0}^{n−1} StreamBit(b, k + i) × 2^(n−1−i)` (R14). -/
def bitField (b : List Byte) (k n : Nat) : Nat :=
  ((List.range n).map fun i => streamBitOf b (k + i) * 2 ^ (n - 1 - i)).sum

/-- `v[hi:lo] = (v div 2^lo) mod 2^(hi − lo + 1)` (R11). -/
def bitSlice (v hi lo : Nat) : Nat := v / 2 ^ lo % 2 ^ (hi - lo + 1)

/-- `wdata[i] = wdata_port[8 × (BUF_BYTES − 1 − i) + 7 : 8 × (BUF_BYTES − 1 − i)]` (R84). -/
def portByte (wdata : WData) (i : Nat) : Nat := bitSlice wdata.toNat (8 * (33 - i) + 7) (8 * (33 - i))

/-- `wdata[0 .. len − 1]` (R84). -/
def portBytes (wdata : WData) (len : Nat) : List Byte :=
  (List.range len).map fun i => BitVec.ofNat 8 (portByte wdata i)

/-- `PackSI(f1, ..., f9)` as a number (R142). -/
def packedRecord (r : Streaminfo) : Nat :=
  r.minBlkSize.toNat * 2 ^ 256 + r.maxBlkSize.toNat * 2 ^ 240 + r.minFrameSize.toNat * 2 ^ 216 +
    r.maxFrameSize.toNat * 2 ^ 192 + r.sampleRate.toNat * 2 ^ 172 + r.numChannels.toNat * 2 ^ 169 +
    r.bitsPerSample.toNat * 2 ^ 164 + r.totalSampleCount.toNat * 2 ^ 128 + r.md5Checksum.toNat

/-- The record whose nine fields are the stream bits 0..15, 16..31, 32..55, 56..79, 80..99, 100..102, 103..107,
108..143 and 144..271 of a payload (R75, R137). -/
def recordOfBits (p : List Byte) : Streaminfo where
  minBlkSize       := BitVec.ofNat 16 (bitField p 0 16)
  maxBlkSize       := BitVec.ofNat 16 (bitField p 16 16)
  minFrameSize     := BitVec.ofNat 24 (bitField p 32 24)
  maxFrameSize     := BitVec.ofNat 24 (bitField p 56 24)
  sampleRate       := BitVec.ofNat 20 (bitField p 80 20)
  numChannels      := BitVec.ofNat 3 (bitField p 100 3)
  bitsPerSample    := BitVec.ofNat 5 (bitField p 103 5)
  totalSampleCount := BitVec.ofNat 36 (bitField p 108 36)
  md5Checksum      := BitVec.ofNat 128 (bitField p 144 128)

/-- The (mask, match) pairs of the eighteen rows of format BLKHDR, in the order of spec/opcode_table.json (R86). -/
def blkhdrRows : List (Nat × Nat) :=
  [(0x7F000000, 0x00000000), (0x7F000000, 0x01000000), (0x7F000000, 0x02000000), (0x7F000000, 0x03000000),
    (0x7F000000, 0x04000000), (0x7F000000, 0x05000000), (0x7F000000, 0x06000000), (0x7F000000, 0x07000000),
    (0x78000000, 0x08000000), (0x70000000, 0x10000000), (0x60000000, 0x20000000), (0x60000000, 0x40000000),
    (0x70000000, 0x60000000), (0x78000000, 0x70000000), (0x7C000000, 0x78000000), (0x7E000000, 0x7C000000),
    (0x7F000000, 0x7E000000), (0x7F000000, 0x7F000000)]

/-- The row of format BLKHDR an instruction stands for, counted from 0. -/
def blkhdrRow : Instr → Option Nat
  | .load _ _ => none
  | .read _ => none
  | .hdec _ _ => none
  | .sidec _ _ => none
  | .btStreaminfo _ _ => some 0
  | .btPadding _ _ => some 1
  | .btApplication _ _ => some 2
  | .btSeektable _ _ => some 3
  | .btVorbiscomment _ _ => some 4
  | .btCuesheet _ _ => some 5
  | .btPicture _ _ => some 6
  | .btReserved7 _ _ => some 7
  | .btReserved8to15 _ _ _ => some 8
  | .btReserved16to31 _ _ _ => some 9
  | .btReserved32to63 _ _ _ => some 10
  | .btReserved64to95 _ _ _ => some 11
  | .btReserved96to111 _ _ _ => some 12
  | .btReserved112to119 _ _ _ => some 13
  | .btReserved120to123 _ _ _ => some 14
  | .btReserved124to125 _ _ _ => some 15
  | .btReserved126 _ _ => some 16
  | .btForbidden _ _ => some 17
  | .si272 _ => none
  | .read128 => none

namespace Machine

/-- The bytes of BC.buf, `BC.buf[0 .. BC.len − 1]` (R22). -/
def State.bytes (s : State) : List Byte := s.bc.buf.bytes

/-- The cursor's invariant: the buffer holds exactly the bytes 0 .. BC.len − 1 (R22), in canonical form, and
`0 ≤ BC.off ≤ 8 × BC.len ≤ 8 × BUF_BYTES` (R25). -/
abbrev BitCursor.Inv (c : BitCursor) : Prop :=
  c.buf.wf = true ∧ c.buf = Memory.ofBytes c.buf.bytes ∧ c.buf.length = c.len.toNat ∧
    c.len.toNat ≤ Config.bufBytes ∧ c.off.toNat ≤ 8 * c.len.toNat

/-- A command in flight has at least its completing clock edge before it (R85, R226). -/
abbrev FlightInv (f : Option Flight) : Prop := f.all (fun f => decide (1 ≤ f.remaining)) = true

/-- The invariant every step keeps. -/
abbrev State.Inv (s : State) : Prop := s.bc.Inv ∧ FlightInv s.inFlight

/-- The next `n` bytes of a source, or all there are if it has fewer (R64): the bytes listed, then, for an endless source,
its repetitions. -/
def ByteSource.upcoming (src : ByteSource) (n : Nat) : List Byte :=
  match src.ending with
  | .eof => src.bytes.take n
  | .ioFault => src.bytes.take n
  | .repeats first others => (src.bytes ++ repeatBytes (first :: others) n).take n

/-- The source never ends (R227). -/
def ByteSource.endless (src : ByteSource) : Bool :=
  match src.ending with
  | .eof => false
  | .ioFault => false
  | .repeats _ _ => true

/-- The bytes of a metadata block that is not the last, of type code `code` and with this payload (R70, R71). -/
def nonFinalBlock (code : Nat) (payload : List Byte) : Byte × List Byte :=
  (BitVec.ofNat 8 code, BitVec.ofNat 8 (payload.length / 65536) :: BitVec.ofNat 8 (payload.length / 256 % 256) ::
    BitVec.ofNat 8 (payload.length % 256) :: payload)

/-- A safe step: it answers a next state, no fault and no refusal. -/
def SafeStep (s : State) : Prop := ∃ t, step s = .next t

/-- Issue READs of the given widths one after another, as long as each ends in OK: the widths with the values RD held,
and the state after the last (R107). -/
def readValues : List Arg → State → Option (List (Nat × Nat) × State)
  | [], s => some ([], s)
  | n :: ns, s =>
    match exec (.read n) s with
    | .next t =>
      if t.status = .ok then
        match readValues ns t with
        | some (vs, u) => some ((n.toNat, t.rd.toNat) :: vs, u)
        | none => none
      else none
    | .fault _ => none
    | .refused _ => none

/-- "the values written one after another, the i-th as an n_i-bit binary numeral" (R107), as a number. -/
def spelled (vs : List (Nat × Nat)) : Nat := vs.foldl (fun acc nv => acc * 2 ^ nv.1 + nv.2) 0

/-- The host's side and `busy` are as before. -/
abbrev SameHostSide (s t : State) : Prop :=
  t.inFlight = s.inFlight ∧ t.hostQueue = s.hostQueue ∧ t.hostRead128 = s.hostRead128

/-- Every byte of the buffer reads as before. -/
abbrev SameMemory (s t : State) : Prop := ∀ i, t.bc.buf.readByte i = s.bc.buf.readByte i

end Machine

end Sys2Proof
end

