-- ==== Sys2Proof/Certificates/Slice0/Obligations.lean ====
section
/-!
DEFINITION. The statements for the provers: what reset leaves, what each command and each row of the opcode table does
and leaves alone, the laws of bit reading, of the header and of the STREAMINFO layout, the errors, the handshake at the
ports, and the host of the source's system.
-/

open Sys2Proof Sys2Proof.Machine

/-! ### Reset, the invariant, and that the block cannot hang -/

/-- R38: the reset value of every piece of state, and that every READ of a legal width fails with OutOfBits right after
reset. That the two fields of the host's side are empty is the model's own (log 1, log 10) and is not part of this. -/
def Obligations.ResetStateValues : Prop :=
  State.reset.bytes = [] ∧ State.reset.bc.len.toNat = 0 ∧ State.reset.bc.off.toNat = 0 ∧
    State.reset.rd.toNat = 0 ∧ State.reset.rdV = false ∧
    State.reset.hdr.isLast = false ∧ State.reset.hdr.type.toNat = 0 ∧ State.reset.hdr.length.toNat = 0 ∧
    State.reset.hdrV = false ∧ packedRecord State.reset.si = 0 ∧ State.reset.siV = false ∧
    State.reset.status.code.toNat = 0 ∧ State.reset.busy = false ∧
    (∀ n : Arg, 1 ≤ n.toNat → n.toNat ≤ 64 →
      exec (.read n) State.reset = .next { State.reset with status := .outOfBits })

/-- R25 at reset. -/
def Obligations.ResetMeetsCursorInvariant : Prop := State.reset.Inv

/-- R25, "true after reset and after every command": every step keeps the invariant, from every state that meets it. -/
def Obligations.StepKeepsCursorInvariant : Prop := ∀ s t : State, s.Inv → step s = .next t → t.Inv

/-- R85 and R227: "Every accepted command completes"; "The block cannot hang". From every state that meets the
invariant a step answers a next state: no fault, no refusal. -/
def Obligations.StepAlwaysCompletes : Prop := ∀ s : State, s.Inv → SafeStep s

/-- R25 and R85 at the ports: every rising edge, whatever the inputs, gives a next state and keeps the invariant. -/
def Obligations.ClockEdgeKeepsCursorInvariant : Prop :=
  ∀ (i : PortIn) (s : State), s.Inv → ∃ t, clockEdge i s = .next t ∧ t.Inv

/-! ### The step -/

/-- R20: when the block is idle and a request is presented that decodes to an instruction, the step is that
instruction's `exec` at the state with the request taken off the host's queue. The queue is the model's (log 1). -/
def Obligations.StepRunsDecodedInstruction : Prop :=
  ∀ (s : State) (r : Request) (rest : List HostInput) (i : Instr),
    s.inFlight = none → s.hostQueue = .request r :: rest → decode r = .ok i →
      step s = exec i { s with hostQueue := rest }

/-- R202: "an idle block simply holds cmd_ready = 1 and its registers". That this is a step of its own is the model's
reading (log 2). -/
def Obligations.IdleBlockHoldsItsRegisters : Prop :=
  ∀ s : State, s.inFlight = none → s.hostQueue = [] → step s = .next s

/-- R215, R216: reset, whatever the state: all of R21 and `busy` take the reset values and a command in flight has no
effect. The host's side stays (log 1). -/
def Obligations.ResetStepFromAnyState : Prop :=
  ∀ (s : State) (rest : List HostInput), s.hostQueue = .reset :: rest →
    step s = .next { State.reset with hostQueue := rest, hostRead128 := s.hostRead128 }

/-! ### LOAD (R101) -/

/-- LOAD with a legal length completes: the buffer holds wdata[0 .. len − 1] and no other byte, BC.len = len,
BC.off = 0, STATUS = OK, and nothing else changes (R101). -/
def Obligations.LoadCompletes : Prop :=
  ∀ (len : Arg) (wdata : WData) (s : State), len.toNat ≤ 34 →
    ∃ t, exec (.load len wdata) s = .next t ∧
      t.bytes = portBytes wdata len.toNat ∧
      (∀ i, t.bc.buf.readByte i = if i < len.toNat then some (BitVec.ofNat 8 (portByte wdata i)) else none) ∧
      t.bc.len.toNat = len.toNat ∧ t.bc.off.toNat = 0 ∧ t.status = .ok ∧
      t.rd = s.rd ∧ t.rdV = s.rdV ∧ t.hdr = s.hdr ∧ t.hdrV = s.hdrV ∧ t.si = s.si ∧ t.siV = s.siV ∧ SameHostSide s t

/-- R101 whole: the command whose word has op = 0, with its encoding, its one exception and its effect. -/
def Obligations.LoadCommand : Prop :=
  ∀ (s : State) (cmd : CmdWord) (wdata : WData) (rest : List HostInput),
    s.inFlight = none → s.hostQueue = .request (.command cmd wdata) :: rest → bitSlice cmd.toNat 31 30 = 0 →
      step s = .next
        (if bitSlice cmd.toNat 29 24 ≠ 0 ∨ 34 < bitSlice cmd.toNat 23 0 then
          { s with hostQueue := rest, status := .illegalCommand }
        else
          { s with
            hostQueue := rest
            bc := ⟨Memory.ofBytes (portBytes wdata (bitSlice cmd.toNat 23 0)),
              BitVec.ofNat 6 (bitSlice cmd.toNat 23 0), 0⟩
            status := .ok })

/-! ### READ (R104) -/

/-- READ completes when its width is legal and the bits are there: RD is the sum of R104, BC.off advances by n, RD_V is
set, STATUS = OK, and nothing else changes; every byte of the buffer reads as before. -/
def Obligations.ReadCompletes : Prop :=
  ∀ (n : Arg) (s : State), s.Inv → 1 ≤ n.toNat → n.toNat ≤ 64 →
    n.toNat ≤ 8 * s.bc.len.toNat - s.bc.off.toNat →
      ∃ t, exec (.read n) s = .next t ∧
        t.rd.toNat = bitField s.bytes s.bc.off.toNat n.toNat ∧ t.rd.toNat < 2 ^ n.toNat ∧ t.rdV = true ∧
        t.bc.off.toNat = s.bc.off.toNat + n.toNat ∧ t.status = .ok ∧
        SameMemory s t ∧ t.bc.buf = s.bc.buf ∧ t.bc.len = s.bc.len ∧
        t.hdr = s.hdr ∧ t.hdrV = s.hdrV ∧ t.si = s.si ∧ t.siV = s.siV ∧ SameHostSide s t

/-- R56: out of range is all or nothing, and reading exactly the remaining bits is in range. -/
def Obligations.ReadOutOfRange : Prop :=
  ∀ (n : Arg) (s : State), s.Inv → 1 ≤ n.toNat → n.toNat ≤ 64 →
    (8 * s.bc.len.toNat - s.bc.off.toNat < n.toNat →
      exec (.read n) s = .next { s with rdV := false, status := .outOfBits }) ∧
    (n.toNat = 8 * s.bc.len.toNat - s.bc.off.toNat →
      ∃ t, exec (.read n) s = .next t ∧ t.status = .ok ∧ t.bc.off.toNat = 8 * t.bc.len.toNat)

/-- R104 whole: the command whose word has op = 1, with its encoding, its two exceptions and its effect. -/
def Obligations.ReadCommand : Prop :=
  ∀ (s : State) (cmd : CmdWord) (wdata : WData) (rest : List HostInput), s.Inv →
    s.inFlight = none → s.hostQueue = .request (.command cmd wdata) :: rest → bitSlice cmd.toNat 31 30 = 1 →
      step s = .next
        (if bitSlice cmd.toNat 29 24 ≠ 0 ∨ bitSlice cmd.toNat 23 0 < 1 ∨ 64 < bitSlice cmd.toNat 23 0 then
          { s with hostQueue := rest, status := .illegalCommand }
        else if 8 * s.bc.len.toNat - s.bc.off.toNat < bitSlice cmd.toNat 23 0 then
          { s with hostQueue := rest, rdV := false, status := .outOfBits }
        else
          { s with
            hostQueue := rest
            bc := { s.bc with off := BitVec.ofNat 9 (s.bc.off.toNat + bitSlice cmd.toNat 23 0) }
            rd := BitVec.ofNat 64 (bitField s.bytes s.bc.off.toNat (bitSlice cmd.toNat 23 0))
            rdV := true
            status := .ok })

/-- The model's one fault (log 7): in a state whose buffer lacks one of the bits, which breaks R25's buffer, a READ that
BC.len lets through stops by name. -/
def Obligations.ReadStopsOnAbsentByte : Prop :=
  ∀ (n : Arg) (s : State), 1 ≤ n.toNat → n.toNat ≤ 64 → n.toNat ≤ 8 * s.bc.len.toNat - s.bc.off.toNat →
    ∀ k, s.bc.off.toNat ≤ k → k < s.bc.off.toNat + n.toNat → s.bc.buf.readByte (k / 8) = none →
      exec (.read n) s = .fault .bufferByteAbsent

/-- R107, first sentence: READ a then READ b returns x then y with x × 2^b + y = z, z being what READ a+b returns from
the same state, and both ways end with the same cursor. -/
def Obligations.ReadConcatenation : Prop :=
  ∀ (a b ab : Arg) (s : State), s.Inv → 1 ≤ a.toNat → 1 ≤ b.toNat → ab.toNat = a.toNat + b.toNat → ab.toNat ≤ 64 →
    ab.toNat ≤ 8 * s.bc.len.toNat - s.bc.off.toNat →
      ∃ u v t, exec (.read a) s = .next u ∧ exec (.read b) u = .next v ∧ exec (.read ab) s = .next t ∧
        u.rd.toNat * 2 ^ b.toNat + v.rd.toNat = t.rd.toNat ∧ v.bc = t.bc

/-- R107, second sentence, "no bit leakage across field boundaries": successful reads of any widths, one after another,
spell exactly the stream bits they cover, and BC.off ends at their sum. -/
def Obligations.ReadSequenceSpellsTheBuffer : Prop :=
  ∀ (ns : List Arg) (s : State), s.Inv → (∀ n ∈ ns, 1 ≤ n.toNat ∧ n.toNat ≤ 64) →
    (ns.map BitVec.toNat).sum ≤ 8 * s.bc.len.toNat - s.bc.off.toNat →
      ∃ vs t, readValues ns s = some (vs, t) ∧ vs.map Prod.fst = ns.map BitVec.toNat ∧
        (∀ v ∈ vs, v.2 < 2 ^ v.1) ∧
        spelled vs = bitField s.bytes s.bc.off.toNat (ns.map BitVec.toNat).sum ∧
        t.bc = { s.bc with off := BitVec.ofNat 9 (s.bc.off.toNat + (ns.map BitVec.toNat).sum) }

/-- R108: at a byte boundary a READ of whole bytes returns their big-endian value. -/
def Obligations.AlignedReadIsBigEndian : Prop :=
  ∀ (n : Arg) (s : State) (j m : Nat), s.Inv → s.bc.off.toNat = 8 * j → n.toNat = 8 * m → 1 ≤ m → m ≤ 8 →
    j + m ≤ s.bc.len.toNat →
      ∃ t, exec (.read n) s = .next t ∧ t.rd.toNat = bigEndian ((s.bytes.drop j).take m)

/-- R104 corner case (h): "Bits before BC.off and after BC.off + n − 1 have no influence on v." -/
def Obligations.ReadDependsOnItsBitsAlone : Prop :=
  ∀ (n : Arg) (s u : State), s.Inv → u.Inv → 1 ≤ n.toNat → n.toNat ≤ 64 →
    n.toNat ≤ 8 * s.bc.len.toNat - s.bc.off.toNat → n.toNat ≤ 8 * u.bc.len.toNat - u.bc.off.toNat →
    (∀ i, i < n.toNat → streamBitOf s.bytes (s.bc.off.toNat + i) = streamBitOf u.bytes (u.bc.off.toNat + i)) →
      ∃ t v, exec (.read n) s = .next t ∧ exec (.read n) u = .next v ∧ t.rd = v.rd

/-- R109: but for a legal LOAD and a SIDEC that passes its length check (the row SI272 is one, log 9), no instruction
changes BC.buf or BC.len or lowers BC.off. -/
def Obligations.CursorIsForwardOnly : Prop :=
  ∀ (i : Instr) (s t : State), s.Inv → exec i s = .next t →
    (∃ len wdata, i = .load len wdata ∧ len.toNat ≤ 34) ∨ (∃ plen wdata, i = .sidec plen wdata ∧ 34 ≤ plen.toNat) ∨
      (∃ r, i = .si272 r) ∨
      (t.bc.buf = s.bc.buf ∧ t.bc.len = s.bc.len ∧ s.bc.off.toNat ≤ t.bc.off.toNat)

/-! ### READ128 (R92) -/

/-- R92: with 128 bits left READ128 completes: the issuer's value is hi × 2^64 + lo, the 128 bits in stream order; RD
holds the low half. That both reads are one step and that the value stands in State are the model's (log 10). -/
def Obligations.Read128Completes : Prop :=
  ∀ s : State, s.Inv → 128 ≤ 8 * s.bc.len.toNat - s.bc.off.toNat →
    ∃ t v, exec .read128 s = .next t ∧ t.hostRead128 = some v ∧
      v.toNat = bitField s.bytes s.bc.off.toNat 64 * 2 ^ 64 + bitField s.bytes (s.bc.off.toNat + 64) 64 ∧
      v.toNat = bitField s.bytes s.bc.off.toNat 128 ∧
      t.rd.toNat = bitField s.bytes (s.bc.off.toNat + 64) 64 ∧ t.rdV = true ∧
      t.bc = { s.bc with off := BitVec.ofNat 9 (s.bc.off.toNat + 128) } ∧ t.status = .ok ∧
      t.hdr = s.hdr ∧ t.hdrV = s.hdrV ∧ t.si = s.si ∧ t.siV = s.siV ∧
      t.inFlight = s.inFlight ∧ t.hostQueue = s.hostQueue

/-- R92, the two failures: the second READ is not issued when the first fails; when the second fails, 64 bits have been
consumed; no value results either way. -/
def Obligations.Read128RunsOutOfBits : Prop :=
  ∀ s : State, s.Inv →
    (8 * s.bc.len.toNat - s.bc.off.toNat < 64 →
      exec .read128 s = .next { s with rdV := false, status := .outOfBits, hostRead128 := none }) ∧
    (64 ≤ 8 * s.bc.len.toNat - s.bc.off.toNat → 8 * s.bc.len.toNat - s.bc.off.toNat < 128 →
      exec .read128 s = .next
        { s with
          bc := { s.bc with off := BitVec.ofNat 9 (s.bc.off.toNat + 64) }
          rd := BitVec.ofNat 64 (bitField s.bytes s.bc.off.toNat 64)
          rdV := false
          status := .outOfBits
          hostRead128 := none })

/-! ### HDEC and the header rows (R121, R73) -/

/-- HDEC with four bytes completes on every header word: the three fields by R72's arithmetic on h = wdata[0..3],
HDR_V set, STATUS = OK, and nothing else changes (R121). -/
def Obligations.HdecCompletes : Prop :=
  ∀ (cnt : Arg) (wdata : WData) (s : State), cnt.toNat = 4 →
    ∃ t, exec (.hdec cnt wdata) s = .next t ∧
      t.hdr.isLast = decide (portByte wdata 0 / 128 = 1) ∧
      t.hdr.type.toNat = portByte wdata 0 % 128 ∧
      t.hdr.length.toNat = portByte wdata 1 * 65536 + portByte wdata 2 * 256 + portByte wdata 3 ∧
      t.hdrV = true ∧ t.status = .ok ∧
      t.bc = s.bc ∧ SameMemory s t ∧ t.rd = s.rd ∧ t.rdV = s.rdV ∧ t.si = s.si ∧ t.siV = s.siV ∧ SameHostSide s t

/-- R121 whole: the command whose word has op = 2, with its encoding, its two exceptions and its effect. -/
def Obligations.HdecCommand : Prop :=
  ∀ (s : State) (cmd : CmdWord) (wdata : WData) (rest : List HostInput),
    s.inFlight = none → s.hostQueue = .request (.command cmd wdata) :: rest → bitSlice cmd.toNat 31 30 = 2 →
      step s = .next
        (if bitSlice cmd.toNat 29 24 ≠ 0 ∨ 4 < bitSlice cmd.toNat 23 0 then
          { s with hostQueue := rest, status := .illegalCommand }
        else if bitSlice cmd.toNat 23 0 < 4 then
          { s with hostQueue := rest, hdrV := false, status := .unexpectedEof }
        else
          { s with
            hostQueue := rest
            hdr := ⟨decide (bitSlice (bigEndian (portBytes wdata 4)) 31 31 = 1),
              BitVec.ofNat 7 (bitSlice (bigEndian (portBytes wdata 4)) 30 24),
              BitVec.ofNat 24 (bitSlice (bigEndian (portBytes wdata 4)) 23 0)⟩
            hdrV := true
            status := .ok })

/-- is_last depends on bit 31 alone, type on bits 30..24 alone and length on bits 23..0 alone of the header word. R123's
sentence on type and length is the spec's own derivation from R121, so this is derived; which bit is_last is, `HdecCompletes`
and `HdecCommand` say. -/
def Obligations.HeaderFieldIndependence : Prop :=
  ∀ (w w' : HeaderWord) (s s' t t' : State),
    exec (.hdec 4#24 (w ++ 0#240)) s = .next t → exec (.hdec 4#24 (w' ++ 0#240)) s' = .next t' →
      (bitSlice w.toNat 31 31 = bitSlice w'.toNat 31 31 → t.hdr.isLast = t'.hdr.isLast) ∧
      (bitSlice w.toNat 30 24 = bitSlice w'.toNat 30 24 → t.hdr.type = t'.hdr.type) ∧
      (bitSlice w.toNat 23 0 = bitSlice w'.toNat 23 0 → t.hdr.length = t'.hdr.length)

/-- R124: no two header words decode alike, and every header value has exactly one word, PackHdr of it. -/
def Obligations.HeaderWordsAreABijection : Prop :=
  (∀ (w w' : HeaderWord) (s s' t t' : State), exec (.hdec 4#24 (w ++ 0#240)) s = .next t →
    exec (.hdec 4#24 (w' ++ 0#240)) s' = .next t' → t.hdr = t'.hdr → w = w') ∧
  (∀ (h : HeaderRegs) (s : State), ∃ t,
    exec (.hdec 4#24
      (BitVec.ofNat 32 (h.isLast.toNat * 2 ^ 31 + h.type.toNat * 2 ^ 24 + h.length.toNat) ++ 0#240)) s = .next t ∧
    t.hdr = h)

/-- R73: the type code table, and that BlockTypeOf is a bijection onto the values of the variant with inverse
CodeOf. -/
def Obligations.BlockTypeTable : Prop :=
  blockTypeOf 0#7 = .streaminfo ∧ blockTypeOf 1#7 = .padding ∧ blockTypeOf 2#7 = .application ∧
    blockTypeOf 3#7 = .seektable ∧ blockTypeOf 4#7 = .vorbisComment ∧ blockTypeOf 5#7 = .cuesheet ∧
    blockTypeOf 6#7 = .picture ∧ blockTypeOf 127#7 = .forbidden ∧
    (∀ c : BitVec 7, 7 ≤ c.toNat → c.toNat ≤ 126 → blockTypeOf c = .reserved c) ∧
    (∀ c : BitVec 7, (blockTypeOf c).wellFormed = true ∧ codeOf (blockTypeOf c) = c) ∧
    (∀ b : BlockType, b.wellFormed = true → blockTypeOf (codeOf b) = b)

/-- Every row of format BLKHDR completes in every state: is_last, the row's type code (with the row's open low bits) and
length are latched, HDR_V is set, STATUS = OK, and nothing else changes (R72, R73, R121). That such a row is run as the
header word presented to BHD is the model's reading (log 8). -/
def Obligations.HeaderRowsComplete : Prop :=
  ∀ (isLast : Bool) (length : BitVec 24) (s : State) (b1 : BitVec 1) (b2 : BitVec 2) (b3 : BitVec 3) (b4 : BitVec 4)
    (b5 : BitVec 5),
    let latched (code : Nat) : Host.Outcome State Fault Refusal :=
      .next { s with hdr := ⟨isLast, BitVec.ofNat 7 code, length⟩, hdrV := true, status := .ok }
    exec (.btStreaminfo isLast length) s = latched 0 ∧
    exec (.btPadding isLast length) s = latched 1 ∧
    exec (.btApplication isLast length) s = latched 2 ∧
    exec (.btSeektable isLast length) s = latched 3 ∧
    exec (.btVorbiscomment isLast length) s = latched 4 ∧
    exec (.btCuesheet isLast length) s = latched 5 ∧
    exec (.btPicture isLast length) s = latched 6 ∧
    exec (.btReserved7 isLast length) s = latched 7 ∧
    exec (.btReserved8to15 b3 isLast length) s = latched (8 + b3.toNat) ∧
    exec (.btReserved16to31 b4 isLast length) s = latched (16 + b4.toNat) ∧
    exec (.btReserved32to63 b5 isLast length) s = latched (32 + b5.toNat) ∧
    exec (.btReserved64to95 b5 isLast length) s = latched (64 + b5.toNat) ∧
    exec (.btReserved96to111 b4 isLast length) s = latched (96 + b4.toNat) ∧
    exec (.btReserved112to119 b3 isLast length) s = latched (112 + b3.toNat) ∧
    exec (.btReserved120to123 b2 isLast length) s = latched (120 + b2.toNat) ∧
    exec (.btReserved124to125 b1 isLast length) s = latched (124 + b1.toNat) ∧
    exec (.btReserved126 isLast length) s = latched 126 ∧
    exec (.btForbidden isLast length) s = latched 127

/-- R86: a header word matches a row of format BLKHDR, by its mask and match, exactly when the decoder gives that row;
so no two rows match one word and every word matches one. -/
def Obligations.HeaderRowsPartitionTheWords : Prop :=
  ∀ (w : HeaderWord) (k : Nat) (mask pattern : Nat), blkhdrRows[k]? = some (mask, pattern) →
    (w.toNat &&& mask = pattern ↔ blkhdrRow (decodeHeader w) = some k)

/-- R125: decoding through the cursor gives the same three values: LOAD 4, then READ 1, READ 7 and READ 24 return
is_last, type and length as HDEC 4 produces them from the same bytes, and BC.off ends at 32. -/
def Obligations.CursorAgreesWithHdec : Prop :=
  ∀ (wdata : WData) (s : State), ∃ h a b c d,
    exec (.hdec 4#24 wdata) s = .next h ∧
    exec (.load 4#24 wdata) s = .next a ∧ exec (.read 1#24) a = .next b ∧ exec (.read 7#24) b = .next c ∧
    exec (.read 24#24) c = .next d ∧
    b.rd.toNat = h.hdr.isLast.toNat ∧ c.rd.toNat = h.hdr.type.toNat ∧ d.rd.toNat = h.hdr.length.toNat ∧
    d.bc.off.toNat = 32 ∧ d.status = .ok

/-! ### SIDEC and the payload row (R137, R75) -/

/-- SIDEC with 34 bytes or more completes: the nine fields are R77's arithmetic on p = wdata[0..33], which is
independent of the ten reads (R139); the cursor is left at (34, 272), SI_V is set, STATUS = OK, and nothing else
changes. -/
def Obligations.SidecCompletesByByteArithmetic : Prop :=
  ∀ (plen : Arg) (wdata : WData) (s : State), 34 ≤ plen.toNat →
    ∃ t, exec (.sidec plen wdata) s = .next t ∧
      t.si.minBlkSize.toNat = portByte wdata 0 * 2 ^ 8 + portByte wdata 1 ∧
      t.si.maxBlkSize.toNat = portByte wdata 2 * 2 ^ 8 + portByte wdata 3 ∧
      t.si.minFrameSize.toNat = portByte wdata 4 * 2 ^ 16 + portByte wdata 5 * 2 ^ 8 + portByte wdata 6 ∧
      t.si.maxFrameSize.toNat = portByte wdata 7 * 2 ^ 16 + portByte wdata 8 * 2 ^ 8 + portByte wdata 9 ∧
      t.si.sampleRate.toNat = portByte wdata 10 * 2 ^ 12 + portByte wdata 11 * 2 ^ 4 + portByte wdata 12 / 16 ∧
      t.si.numChannels.toNat = portByte wdata 12 / 2 % 8 ∧
      t.si.bitsPerSample.toNat = portByte wdata 12 % 2 * 16 + portByte wdata 13 / 16 ∧
      t.si.totalSampleCount.toNat = portByte wdata 13 % 16 * 2 ^ 32 + portByte wdata 14 * 2 ^ 24 +
        portByte wdata 15 * 2 ^ 16 + portByte wdata 16 * 2 ^ 8 + portByte wdata 17 ∧
      t.si.md5Checksum.toNat = bigEndian ((portBytes wdata 34).drop 18) ∧
      t.bytes = portBytes wdata 34 ∧ t.bc.len.toNat = 34 ∧ t.bc.off.toNat = 272 ∧ t.siV = true ∧ t.status = .ok ∧
      t.rd = s.rd ∧ t.rdV = s.rdV ∧ t.hdr = s.hdr ∧ t.hdrV = s.hdrV ∧ SameHostSide s t

/-- R139, the other form: the nine fields are slices of P = BE(p[0..33]). -/
def Obligations.SidecFieldsAreSlices : Prop :=
  ∀ (plen : Arg) (wdata : WData) (s t : State), 34 ≤ plen.toNat → exec (.sidec plen wdata) s = .next t →
    t.si.minBlkSize.toNat = bitSlice wdata.toNat 271 256 ∧
    t.si.maxBlkSize.toNat = bitSlice wdata.toNat 255 240 ∧
    t.si.minFrameSize.toNat = bitSlice wdata.toNat 239 216 ∧
    t.si.maxFrameSize.toNat = bitSlice wdata.toNat 215 192 ∧
    t.si.sampleRate.toNat = bitSlice wdata.toNat 191 172 ∧
    t.si.numChannels.toNat = bitSlice wdata.toNat 171 169 ∧
    t.si.bitsPerSample.toNat = bitSlice wdata.toNat 168 164 ∧
    t.si.totalSampleCount.toNat = bitSlice wdata.toNat 163 128 ∧
    t.si.md5Checksum.toNat = bitSlice wdata.toNat 127 0

/-- R137 whole: the command whose word has op = 3, with its encoding, its two exceptions, the stream bits of its reads
and the cursor it leaves. -/
def Obligations.SidecCommand : Prop :=
  ∀ (s : State) (cmd : CmdWord) (wdata : WData) (rest : List HostInput),
    s.inFlight = none → s.hostQueue = .request (.command cmd wdata) :: rest → bitSlice cmd.toNat 31 30 = 3 →
      step s = .next
        (if bitSlice cmd.toNat 29 24 ≠ 0 then { s with hostQueue := rest, status := .illegalCommand }
        else if bitSlice cmd.toNat 23 0 < 34 then
          { s with hostQueue := rest, siV := false, status := .insufficientData }
        else
          { s with
            hostQueue := rest
            bc := ⟨Memory.ofBytes (portBytes wdata 34), 34#6, 272#9⟩
            si := recordOfBits (portBytes wdata 34)
            siV := true
            status := .ok })

/-- R142, the round-trip law, both ways: a payload that packs nine fields decodes to them (and completes, with the
cursor at (34, 272) and nothing else changed), and the fields SIDEC decodes, packed again, are the payload. That the row
SI272 is run as the payload presented to SID is the model's reading (log 9). -/
def Obligations.StreaminfoRoundTrip : Prop :=
  (∀ (r : Streaminfo) (s : State),
    exec (.si272 r) s = .next
      { s with
        bc := ⟨Memory.ofBytes (portBytes (BitVec.ofNat 272 (packedRecord r)) 34), 34#6, 272#9⟩
        si := r
        siV := true
        status := .ok }) ∧
  (∀ (plen : Arg) (wdata : WData) (s t : State), 34 ≤ plen.toNat → exec (.sidec plen wdata) s = .next t →
    packedRecord t.si = wdata.toNat)

/-- R223: after a SIDEC that decodes, every READ of a legal width fails with OutOfBits until the next LOAD. -/
def Obligations.ReadAfterSidecRunsOut : Prop :=
  ∀ (plen n : Arg) (wdata : WData) (s t : State), 34 ≤ plen.toNat → 1 ≤ n.toNat → n.toNat ≤ 64 →
    exec (.sidec plen wdata) s = .next t →
      exec (.read n) t = .next { t with rdV := false, status := .outOfBits }

/-- READ, P6: the ten widths of SIDEC issued as READs over the same 34 bytes return its nine fields, the md5 in two
halves (R125's counterpart for R137, R139). -/
def Obligations.CursorAgreesWithSidec : Prop :=
  ∀ (wdata : WData) (s t a : State), exec (.sidec 34#24 wdata) s = .next t → exec (.load 34#24 wdata) s = .next a →
    ∃ hi lo u, t.si.md5Checksum.toNat = hi * 2 ^ 64 + lo ∧ u.bc = t.bc ∧
      readValues [16#24, 16#24, 24#24, 24#24, 20#24, 3#24, 5#24, 36#24, 64#24, 64#24] a =
        some ([(16, t.si.minBlkSize.toNat), (16, t.si.maxBlkSize.toNat), (24, t.si.minFrameSize.toNat),
          (24, t.si.maxFrameSize.toNat), (20, t.si.sampleRate.toNat), (3, t.si.numChannels.toNat),
          (5, t.si.bitsPerSample.toNat), (36, t.si.totalSampleCount.toNat), (64, hi), (64, lo)], u)

/-! ### Frames (R32) -/

/-- LOAD's row of R32: it never changes RD, HDR.*, SI.* or a flag, nor the host's side; an illegal one changes no byte
and no part of the cursor either. -/
def Obligations.LoadFrame : Prop :=
  ∀ (len : Arg) (wdata : WData) (s t : State), exec (.load len wdata) s = .next t →
    t.rd = s.rd ∧ t.rdV = s.rdV ∧ t.hdr = s.hdr ∧ t.hdrV = s.hdrV ∧ t.si = s.si ∧ t.siV = s.siV ∧ SameHostSide s t ∧
      (34 < len.toNat → t.bc = s.bc ∧ SameMemory s t) ∧
      (len.toNat ≤ 34 → ∀ i, len.toNat ≤ i → t.bc.buf.readByte i = none)

/-- READ's row of R32, and the same of READ128, which stands for two READs (R92): no byte of the buffer, not BC.len, no
HDR or SI register, not their flags, not the host's queue; READ leaves the host's READ128 value alone too. That READ128 is
one step and its value stands in State is the model's choice (log 10). -/
def Obligations.ReadFrame : Prop :=
  ∀ (i : Instr) (s t : State), ((∃ n, i = .read n) ∨ i = .read128) → exec i s = .next t →
    SameMemory s t ∧ t.bc.buf = s.bc.buf ∧ t.bc.len = s.bc.len ∧ t.hdr = s.hdr ∧ t.hdrV = s.hdrV ∧ t.si = s.si ∧
      t.siV = s.siV ∧ t.inFlight = s.inFlight ∧ t.hostQueue = s.hostQueue ∧
      (i ≠ .read128 → t.hostRead128 = s.hostRead128)

/-- HDEC's row of R32, and the same of the eighteen header rows, which the model runs as HDEC of their word (its choice,
log 8): "HDEC never touches BC.buf, BC.len, BC.off, RD, RD_V, SI.* or SI_V" (R121), nor the host's side. -/
def Obligations.HeaderFrame : Prop :=
  ∀ (i : Instr) (s t : State), ((∃ cnt wdata, i = .hdec cnt wdata) ∨ (blkhdrRow i).isSome) → exec i s = .next t →
    t.bc = s.bc ∧ SameMemory s t ∧ t.rd = s.rd ∧ t.rdV = s.rdV ∧ t.si = s.si ∧ t.siV = s.siV ∧ SameHostSide s t

/-- SIDEC's row of R32, and the same of the row SI272, which the model runs as SIDEC of its payload (its choice, log 9):
"RD, RD_V, HDR.* and HDR_V are never touched by SIDEC" (R137), nor the host's side; a SIDEC that fails its length check
touches no byte and no part of the cursor. -/
def Obligations.StreaminfoFrame : Prop :=
  ∀ (i : Instr) (s t : State), ((∃ plen wdata, i = .sidec plen wdata) ∨ (∃ r, i = .si272 r)) → exec i s = .next t →
    t.rd = s.rd ∧ t.rdV = s.rdV ∧ t.hdr = s.hdr ∧ t.hdrV = s.hdrV ∧ SameHostSide s t ∧
      (∀ plen wdata, i = .sidec plen wdata → plen.toNat < 34 → t.bc = s.bc ∧ SameMemory s t) ∧
      ((∀ plen wdata, i = .sidec plen wdata → 34 ≤ plen.toNat) → ∀ k, 34 ≤ k → t.bc.buf.readByte k = none)

/-! ### Statuses (R185 to R193) -/

/-- R189, at the step: a command word with a nonzero zero field or an operand out of R81's range changes STATUS to
IllegalCommand and nothing else of the block; no other command word ends in IllegalCommand. That such words are executed
and not refused is the model's choice (log 3). -/
def Obligations.IllegalCommandWords : Prop :=
  ∀ (s : State) (cmd : CmdWord) (wdata : WData) (rest : List HostInput),
    s.inFlight = none → s.hostQueue = .request (.command cmd wdata) :: rest →
      let op := bitSlice cmd.toNat 31 30
      let arg := bitSlice cmd.toNat 23 0
      let illegal := bitSlice cmd.toNat 29 24 ≠ 0 ∨ (op = 0 ∧ 34 < arg) ∨ (op = 1 ∧ (arg = 0 ∨ 64 < arg)) ∨
        (op = 2 ∧ 4 < arg)
      (illegal → step s = .next { s with hostQueue := rest, status := .illegalCommand }) ∧
      (¬ illegal → ∀ t, step s = .next t → t.status ≠ .illegalCommand)

/-- R193: the one status of a command, in the fixed order: IllegalCommand, else the unit's error, else OK. -/
def Obligations.StatusPriority : Prop :=
  ∀ (s : State) (cmd : CmdWord) (wdata : WData) (rest : List HostInput), s.Inv →
    s.inFlight = none → s.hostQueue = .request (.command cmd wdata) :: rest →
      let op := bitSlice cmd.toNat 31 30
      let arg := bitSlice cmd.toNat 23 0
      ∃ t, step s = .next t ∧
        t.status =
          if bitSlice cmd.toNat 29 24 ≠ 0 ∨ (op = 0 ∧ 34 < arg) ∨ (op = 1 ∧ (arg = 0 ∨ 64 < arg)) ∨
              (op = 2 ∧ 4 < arg) then .illegalCommand
          else if op = 1 ∧ 8 * s.bc.len.toNat - s.bc.off.toNat < arg then .outOfBits
          else if op = 2 ∧ arg < 4 then .unexpectedEof
          else if op = 3 ∧ arg < 34 then .insufficientData
          else .ok

/-- R190: a command that ends in an error status writes STATUS, clears its own unit's flag for the codes 1, 2 and 3,
and does nothing else. (READ128 is two commands, R92.) -/
def Obligations.ErrorEntryChangesNothingElse : Prop :=
  ∀ (i : Instr) (s t : State), i ≠ .read128 → exec i s = .next t → t.status ≠ .ok →
    t = { s with
      rdV := if t.status = .outOfBits then false else s.rdV
      hdrV := if t.status = .unexpectedEof then false else s.hdrV
      siV := if t.status = .insufficientData then false else s.siV
      status := t.status }

/-- R185, column "raised by": OutOfBits by READ (and READ128's reads), UnexpectedEof by HDEC, InsufficientData by
SIDEC, IllegalCommand by no header row, payload row or READ128, which the model runs as the units' commands (its choice,
log 8, log 9, log 10). -/
def Obligations.ErrorsBelongToTheirUnits : Prop :=
  ∀ (i : Instr) (s t : State), exec i s = .next t →
    (t.status = .outOfBits → (∃ n, i = .read n) ∨ i = .read128) ∧
    (t.status = .unexpectedEof → ∃ cnt wdata, i = .hdec cnt wdata) ∧
    (t.status = .insufficientData → ∃ plen wdata, i = .sidec plen wdata) ∧
    (t.status = .illegalCommand → i.wellFormed = false)

/-- R31: a flag is set by the success of its unit's command and cleared by that command's own error; anything else
leaves it. That a header row counts as an HDEC, the row SI272 as a SIDEC and READ128 as a command of BC is the model's
choice (log 8, log 9, log 10). -/
def Obligations.ValidFlagsFollowTheirUnit : Prop :=
  ∀ (i : Instr) (s t : State), exec i s = .next t →
    ((t.status = .outOfBits → t.rdV = false) ∧
      (t.status = .ok → ((∃ n, i = .read n) ∨ i = .read128) → t.rdV = true) ∧
      (¬ ((∃ n, i = .read n) ∨ i = .read128) → t.rdV = s.rdV) ∧
      (t.status = .illegalCommand → t.rdV = s.rdV)) ∧
    ((t.status = .unexpectedEof → t.hdrV = false) ∧
      (t.status = .ok → ((∃ cnt wdata, i = .hdec cnt wdata) ∨ (blkhdrRow i).isSome) → t.hdrV = true) ∧
      (¬ ((∃ cnt wdata, i = .hdec cnt wdata) ∨ (blkhdrRow i).isSome) → t.hdrV = s.hdrV) ∧
      (t.status = .illegalCommand → t.hdrV = s.hdrV)) ∧
    ((t.status = .insufficientData → t.siV = false) ∧
      (t.status = .ok → ((∃ plen wdata, i = .sidec plen wdata) ∨ (∃ r, i = .si272 r)) → t.siV = true) ∧
      (¬ ((∃ plen wdata, i = .sidec plen wdata) ∨ (∃ r, i = .si272 r)) → t.siV = s.siV) ∧
      (t.status = .illegalCommand → t.siV = s.siV))

/-- R31 and R217: "No command reads a flag", and a result group is read by none: two states that agree on the cursor
are left with the same cursor and the same status by the same instruction, and each result register, each valid flag and
the host's READ128 value (log 10) is equal in the two or unchanged in both. -/
def Obligations.CommandsReadOnlyTheCursor : Prop :=
  ∀ (i : Instr) (s s' t t' : State), s.bc = s'.bc → exec i s = .next t → exec i s' = .next t' →
    t.bc = t'.bc ∧ t.status = t'.status ∧
      (t.rd = t'.rd ∨ (t.rd = s.rd ∧ t'.rd = s'.rd)) ∧
      (t.rdV = t'.rdV ∨ (t.rdV = s.rdV ∧ t'.rdV = s'.rdV)) ∧
      (t.hdr = t'.hdr ∨ (t.hdr = s.hdr ∧ t'.hdr = s'.hdr)) ∧
      (t.hdrV = t'.hdrV ∨ (t.hdrV = s.hdrV ∧ t'.hdrV = s'.hdrV)) ∧
      (t.si = t'.si ∨ (t.si = s.si ∧ t'.si = s'.si)) ∧
      (t.siV = t'.siV ∨ (t.siV = s.siV ∧ t'.siV = s'.siV)) ∧
      (t.hostRead128 = t'.hostRead128 ∨ (t.hostRead128 = s.hostRead128 ∧ t'.hostRead128 = s'.hostRead128))

/-! ### Encodings -/

/-- Decoding the words of an instruction gives it back, for every instruction, with every operand at every value the
encoding admits (R80, R91, R71, R75, R92). -/
def Obligations.DecodeOfEncode : Prop := ∀ i : Instr, decode (encode i) = .ok i

/-- The other direction: a request that decodes is the encoding of its instruction, but for the write data beside a
READ, which it does not use (R84). -/
def Obligations.EncodeOfDecode : Prop :=
  ∀ (r : Request) (i : Instr), decode r = .ok i →
    encode i = r ∨ ∃ cmd wdata, r = .command cmd wdata ∧ bitSlice cmd.toNat 31 30 = 1 ∧ encode i = .command cmd 0#272

/-- R81, R82: a request is rejected exactly when it is a command word whose zero field, bits 29:24, is not 0. -/
def Obligations.DecodeRejectsReservedBits : Prop :=
  ∀ r : Request, decode r = .error .reservedBitsSet ↔
    ∃ cmd wdata, r = .command cmd wdata ∧ bitSlice cmd.toNat 29 24 ≠ 0

/-- Words written out from R80, R71, R75 and R86 (rows of 95_test_vectors.md) decode to the instructions they stand
for. -/
def Obligations.WrittenWordsDecode : Prop :=
  decode (.command 0x00000002#32 0#272) = .ok (.load 2#24 0#272) ∧
    decode (.command 0x40000040#32 0#272) = .ok (.read 64#24) ∧
    decode (.command 0x80000004#32 (0x80000022#32 ++ 0#240)) = .ok (.hdec 4#24 (0x80000022#32 ++ 0#240)) ∧
    decode (.command 0xC0FFFFFF#32 0#272) = .ok (.sidec 16777215#24 0#272) ∧
    decode (.command 0x41000008#32 0#272) = .error .reservedBitsSet ∧
    decode (.header 0x81001000#32) = .ok (.btPadding true 4096#24) ∧
    decode (.header 0x7E000001#32) = .ok (.btReserved126 false 1#24) ∧
    decode (.header 0xC0000000#32) = .ok (.btReserved64to95 0#5 true 0#24) ∧
    decodeTableWord 64 0x4000004040000040 = some .read128

/-! ### The ports (R85, R215, R216, R220, R222) -/

/-- R85, R60 (log 11): a command accepted at the ports of an idle block, with no reset before its LATENCY-th edge and whatever
else the inputs do, completes at that edge in exactly the state the command-level step gives; `rsp_valid` pulses at that
edge and not at the next. -/
def Obligations.ClockedCommandMatchesStep : Prop :=
  ∀ (s : State) (cmd : CmdWord) (wdata : WData) (later : List PortIn), s.Inv → s.inFlight = none →
    later.length = Config.latency cmd wdata → (∀ i ∈ later, i.rst = false) →
      ∃ t, clockEdges (⟨false, true, cmd, wdata⟩ :: later) s = .next t ∧ t.inFlight = none ∧
        ∃ u, step { s with hostQueue := [.request (.command cmd wdata)] } = .next u ∧
          t = { u with hostQueue := s.hostQueue } ∧
        (∀ (before : List PortIn) (last : PortIn), later = before ++ [last] →
          ∃ v, clockEdges (⟨false, true, cmd, wdata⟩ :: before) s = .next v ∧ rspAfterEdge last v = true) ∧
        (∀ next : PortIn, rspAfterEdge next t = false)

/-- R85, R58, R222 (log 11): before the LATENCY-th edge the command is still in flight and no register has changed;
the accepting edge gives no `rsp_valid`, and of the edges after it the LATENCY-th alone does. -/
def Obligations.ClockedCommandIsAtomic : Prop :=
  ∀ (s : State) (cmd : CmdWord) (wdata : WData) (later : List PortIn), s.inFlight = none →
    later.length < Config.latency cmd wdata → (∀ i ∈ later, i.rst = false) →
      ∃ t f, clockEdges (⟨false, true, cmd, wdata⟩ :: later) s = .next t ∧ t.inFlight = some f ∧ f.cmd = cmd ∧
        f.wdata = wdata ∧ t = { s with inFlight := some f } ∧
        rspAfterEdge ⟨false, true, cmd, wdata⟩ s = false ∧
        (∀ next : PortIn, next.rst = false →
          rspAfterEdge next t = decide (later.length + 1 = Config.latency cmd wdata))

/-- R220, R221: while busy the block ignores cmd_valid, cmd and wdata. -/
def Obligations.BusyBlockIgnoresItsInputs : Prop :=
  ∀ (i j : PortIn) (s : State), s.busy = true → i.rst = false → j.rst = false → clockEdge i s = clockEdge j s

/-- R215, R216: an edge with rst = 1 resets the block from any state, accepts nothing and gives no rsp_valid; a command
in flight is abandoned with none of its effects. The host's side stays (log 1). -/
def Obligations.ResetEdgeAbandonsTheCommand : Prop :=
  ∀ (i : PortIn) (s : State), i.rst = true →
    clockEdge i s = .next { State.reset with hostQueue := s.hostQueue, hostRead128 := s.hostRead128 } ∧
      rspAfterEdge i s = false

/-- R222: "The output registers change at the completing edge of a command and are stable at all other times": an edge
with rst = 0 that does not complete a command leaves every output register as it was. The handshake ports cmd_ready and
rsp_valid are no output registers and are fixed on both sides; a reset edge changes the registers too
(`ResetEdgeAbandonsTheCommand`). -/
def Obligations.OutputsChangeOnlyAtCompletion : Prop :=
  ∀ (i : PortIn) (s t : State), i.rst = false → rspAfterEdge i s = false → clockEdge i s = .next t →
    { outputPorts t false with cmdReady := true } = { outputPorts s false with cmdReady := true }

/-! ### The host of the source's system (45_host_context.md) -/

/-- R160: the magic check of all four bytes, its two errors, and that no command is issued before it, by it, or after it
fails. The bytes are the source's next four, listed or of an endless source (log 18). -/
def Obligations.MagicValidation : Prop :=
  ∀ h : ParseSystem, h.phase = .validating →
    ∃ t, h.step = .next t ∧ t.block = h.block ∧ t.parsed = h.parsed ∧
      (h.source.upcoming 4 = [0x66#8, 0x4C#8, 0x61#8, 0x43#8] →
        t.phase = .running ∧ t.source.ending = h.source.ending ∧
          ∀ n, t.source.upcoming n = (h.source.upcoming (4 + n)).drop 4) ∧
      ((h.source.upcoming 4).length = 4 → h.source.upcoming 4 ≠ [0x66#8, 0x4C#8, 0x61#8, 0x43#8] →
        t.phase = .failed (.badMagic (h.source.upcoming 4))) ∧
      ((h.source.upcoming 4).length < 4 → h.source.ending = .eof → t.phase = .failed .unexpectedEof) ∧
      (∀ e, t.phase = .failed e → t.step = .next t)

/-- R165: a Reserved or Forbidden type code, 7..127, is fatal with that code, and the payload is never read; no other
header gives this error. The header is the source's next four bytes, listed or of an endless source (log 18). -/
def Obligations.UnexpectedBlockTypeIsFatal : Prop :=
  ∀ (h : ParseSystem) (h0 h1 h2 h3 : Byte), h.phase = .running → h.block.inFlight = none →
    h.source.upcoming 4 = [h0, h1, h2, h3] →
      (7 ≤ h0.toNat % 128 →
        ∃ t, h.step = .next t ∧ t.phase = .failed (.unexpectedBlockType (BitVec.ofNat 7 (h0.toNat % 128))) ∧
          t.source.ending = h.source.ending ∧ (∀ n, t.source.upcoming n = (h.source.upcoming (4 + n)).drop 4) ∧
          t.parsed = h.parsed) ∧
      (h0.toNat % 128 < 7 → ∀ t code, h.step = .next t → t.phase ≠ .failed (.unexpectedBlockType code))

/-- R227 (the host: log 14; endless sources: log 18): the host's loop ends on any finite byte source, with DONE or with an
error; on an endless source no read comes up short or fails; and on an endless chain of non-final blocks, of any type
code of 0 to 6 and any payload (34 bytes or more for Streaminfo), the host runs for ever, one block emitted each turn. -/
def Obligations.ParseEndsOnFiniteSources : Prop :=
  (∀ src : ByteSource, src.endless = false →
    ∃ k t, k ≤ src.bytes.length + 2 ∧ (ParseSystem.start src).run k = .next t ∧ t.ended = true) ∧
  (∀ (src : ByteSource) (k : Nat) (t : ParseSystem), src.endless = true → (ParseSystem.start src).run k = .next t →
    t.phase ≠ .failed .unexpectedEof ∧ t.phase ≠ .failed .truncatedHeader ∧ t.phase ≠ .failed .truncatedPayload ∧
      t.phase ≠ .failed .ioFault) ∧
  (∀ (code : Nat) (payload : List Byte), code ≤ 6 → payload.length < 2 ^ 24 → (code = 0 → 34 ≤ payload.length) →
    ∀ k, ∃ t,
      (ParseSystem.start ⟨[0x66#8, 0x4C#8, 0x61#8, 0x43#8],
        .repeats (nonFinalBlock code payload).1 (nonFinalBlock code payload).2⟩).run k = .next t ∧
      t.ended = false ∧ t.parsed.length = k - 1)

/-- R126, R175, R176, R186: in the source's system the block's statuses OutOfBits, UnexpectedEof and IllegalCommand are
unreachable; the host's own UnexpectedEof comes from a source too short for the magic. -/
def Obligations.HostMeetsOnlyInsufficientData : Prop :=
  ∀ (src : ByteSource) (k : Nat) (t : ParseSystem), (ParseSystem.start src).run k = .next t →
    (t.block.status = .ok ∨ t.block.status = .insufficientData) ∧
      t.phase ≠ .failed .outOfBits ∧ t.phase ≠ .failed .illegalCommand ∧
      (t.phase = .failed .unexpectedEof → src.bytes.length < 4 ∧ src.ending = .eof)

/-- R173 (the host: log 14): the byte source is held open until the parse ends and released on every exit path; a step of the host keeps
that. -/
def Obligations.SourceReleasedOnEveryExit : Prop :=
  ∀ h t : ParseSystem, h.sourceOpen = !h.ended → h.step = .next t → t.sourceOpen = !t.ended

/-- R177's concrete scenario, for every payload: the magic, the header 80 00 00 22 and 34 payload bytes give exactly
one emitted block, with its record, and DONE. -/
def Obligations.OneBlockStream : Prop :=
  ∀ (p : List Byte), p.length = 34 →
    ∃ t, (ParseSystem.start
        ⟨[0x66#8, 0x4C#8, 0x61#8, 0x43#8, 0x80#8, 0x00#8, 0x00#8, 0x22#8] ++ p, .eof⟩).run 2 = .next t ∧
      t.phase = .done ∧ t.parsed = [⟨true, .streaminfo, 34#24, some (recordOfBits p)⟩] ∧
      t.source.bytes = [] ∧ t.exitZero = some true
end

