-- ==== Sys2Proof/Laws/Memory.lean ====
section
/-!
SUPPORT. The buffer: the canonical form is kept by the one write there is, a read after it, and what a bit field of a
loaded buffer is.
-/

namespace Sys2Proof

/-! ### Sums of the spec's formulas, one term at a time -/

theorem bitField_zero (b : List Byte) (k : Nat) : bitField b k 0 = 0 := by simp [bitField]

/-- The next bit is the least significant one. -/
theorem bitField_succ (b : List Byte) (k n : Nat) :
    bitField b k (n + 1) = 2 * bitField b k n + streamBitOf b (k + n) := by
  unfold bitField
  rw [List.range_succ, List.map_append, List.sum_append]
  have h : ((List.range n).map fun i => streamBitOf b (k + i) * 2 ^ (n + 1 - 1 - i)) =
      (List.range n).map fun i => 2 * (streamBitOf b (k + i) * 2 ^ (n - 1 - i)) := by
    apply List.map_congr_left
    intro i hi
    have hi := List.mem_range.mp hi
    rw [show n + 1 - 1 - i = (n - 1 - i) + 1 by omega, pow_succ]
    ring
  rw [h, List.sum_map_mul_left]
  simp

theorem streamBitOf_lt (b : List Byte) (k : Nat) : streamBitOf b k < 2 := by
  unfold streamBitOf; omega

/-- The value of n bits is below 2^n (R105). -/
theorem bitField_lt (b : List Byte) (k n : Nat) : bitField b k n < 2 ^ n := by
  induction n with
  | zero => simp [bitField_zero]
  | succ n ih =>
    have := streamBitOf_lt b (k + n)
    rw [bitField_succ, pow_succ]; omega

/-- Adjacent bit fields join (R54). -/
theorem bitField_add (b : List Byte) (k m n : Nat) :
    bitField b k (m + n) = bitField b k m * 2 ^ n + bitField b (k + m) n := by
  induction n with
  | zero => simp [bitField_zero]
  | succ n ih => rw [← Nat.add_assoc, bitField_succ, ih, bitField_succ, pow_succ, Nat.add_assoc k m n]; ring

namespace Machine

/-! ### The whole-buffer write -/

theorem Memory.length_ofBytesFrom (a : Nat) (b : List Byte) : (Memory.ofBytesFrom a b).length = b.length := by
  induction b generalizing a with
  | nil => rfl
  | cons x xs ih => simp [Memory.ofBytesFrom, ih]

theorem Memory.bytes_ofBytesFrom (a : Nat) (b : List Byte) : (Memory.ofBytesFrom a b).bytes = b := by
  induction b generalizing a with
  | nil => rfl
  | cons x xs ih => simpa [Memory.ofBytesFrom, Memory.bytes] using ih (a + 1)

theorem Memory.risingFrom_ofBytesFrom (a : Nat) (b : List Byte) : (Memory.ofBytesFrom a b).risingFrom a = true := by
  induction b generalizing a with
  | nil => rfl
  | cons x xs ih => simp [Memory.ofBytesFrom, Memory.risingFrom, ih]

theorem Memory.readByte_ofBytesFrom (a i : Nat) (b : List Byte) :
    (Memory.ofBytesFrom a b).readByte i = if a ≤ i then b[i - a]? else none := by
  induction b generalizing a with
  | nil => simp [Memory.ofBytesFrom, Memory.readByte]
  | cons x xs ih =>
    rw [Memory.ofBytesFrom, Memory.readByte, ih]
    rcases Nat.lt_trichotomy a i with h | h | h
    · rw [if_neg (by omega), if_pos (by omega), if_pos (by omega), show i - a = (i - (a + 1)) + 1 by omega]
      simp
    · subst h; simp
    · rw [if_neg (by omega), if_neg (by omega), if_neg (by omega)]

@[simp] theorem Memory.length_ofBytes (b : List Byte) : (Memory.ofBytes b).length = b.length :=
  Memory.length_ofBytesFrom 0 b

@[simp] theorem Memory.bytes_ofBytes (b : List Byte) : (Memory.ofBytes b).bytes = b := Memory.bytes_ofBytesFrom 0 b

/-- The one write keeps the canonical form. -/
@[simp] theorem Memory.wf_ofBytes (b : List Byte) : (Memory.ofBytes b).wf = true := Memory.risingFrom_ofBytesFrom 0 b

/-- A read after the write gives the byte written, and no byte past the last one. -/
@[simp] theorem Memory.readByte_ofBytes (b : List Byte) (i : Nat) : (Memory.ofBytes b).readByte i = b[i]? := by
  simp [Memory.ofBytes, Memory.readByte_ofBytesFrom]

/-! ### Bits and bit fields -/

theorem toNat_getLsbD (x : Byte) (i : Nat) : (x.getLsbD i).toNat = x.toNat / 2 ^ i % 2 := by
  rw [BitVec.getLsbD, Nat.toNat_testBit]

theorem Memory.streamBit_ofBytes (b : List Byte) (k : Nat) (h : k < 8 * b.length) :
    ∃ v, (Memory.ofBytes b).streamBit k = some v ∧ v.toNat = streamBitOf b k := by
  have hk : k / 8 < b.length := by omega
  refine ⟨(b[k / 8]).getLsbD (7 - k % 8), ?_, ?_⟩
  · simp [Memory.streamBit, List.getElem?_eq_getElem hk]
  · simp [toNat_getLsbD, streamBitOf, List.getElem?_eq_getElem hk]

/-- MemRead of a loaded buffer is the sum of R14. -/
theorem Memory.readBits_ofBytes (b : List Byte) (k n : Nat) (h : k + n ≤ 8 * b.length) :
    (Memory.ofBytes b).readBits k n = some (bitField b k n) := by
  induction n with
  | zero => simp [Memory.readBits, bitField_zero]
  | succ n ih =>
    obtain ⟨v, hv, hn⟩ := Memory.streamBit_ofBytes b (k + n) (by omega)
    simp [Memory.readBits, ih (by omega), hv, hn, bitField_succ]

/-- MemRead meets an absent byte: it gives none. -/
theorem Memory.readBits_absent (m : Memory) (k n j : Nat) (h1 : k ≤ j) (h2 : j < k + n)
    (h : m.readByte (j / 8) = none) : m.readBits k n = none := by
  induction n with
  | zero => omega
  | succ n ih =>
    rcases Nat.lt_or_ge j (k + n) with hj | hj
    · simp [Memory.readBits, ih hj]
    · have : j = k + n := by omega
      subst this
      cases hm : m.readBits k n <;> simp [Memory.readBits, hm, Memory.streamBit, h]

end Machine

end Sys2Proof
end

