-- ==== Sys2Proof/Laws/State.lean ====
section
/-!
SUPPORT. One lemma for each field and each update of the state, so that no later proof unfolds an update.
-/

namespace Sys2Proof.Machine

@[simp] theorem State.setCursor_bc (s : State) (c : BitCursor) : (s.setCursor c).bc = c := rfl
@[simp] theorem State.setCursor_rd (s : State) (c : BitCursor) : (s.setCursor c).rd = s.rd := rfl
@[simp] theorem State.setCursor_rdV (s : State) (c : BitCursor) : (s.setCursor c).rdV = s.rdV := rfl
@[simp] theorem State.setCursor_hdr (s : State) (c : BitCursor) : (s.setCursor c).hdr = s.hdr := rfl
@[simp] theorem State.setCursor_hdrV (s : State) (c : BitCursor) : (s.setCursor c).hdrV = s.hdrV := rfl
@[simp] theorem State.setCursor_si (s : State) (c : BitCursor) : (s.setCursor c).si = s.si := rfl
@[simp] theorem State.setCursor_siV (s : State) (c : BitCursor) : (s.setCursor c).siV = s.siV := rfl
@[simp] theorem State.setCursor_status (s : State) (c : BitCursor) : (s.setCursor c).status = s.status := rfl
@[simp] theorem State.setCursor_inFlight (s : State) (c : BitCursor) : (s.setCursor c).inFlight = s.inFlight := rfl
@[simp] theorem State.setCursor_hostQueue (s : State) (c : BitCursor) : (s.setCursor c).hostQueue = s.hostQueue := rfl
@[simp] theorem State.setCursor_hostRead128 (s : State) (c : BitCursor) : (s.setCursor c).hostRead128 = s.hostRead128 := rfl

@[simp] theorem State.setRd_bc (s : State) (v : BitVec 64) : (s.setRd v).bc = s.bc := rfl
@[simp] theorem State.setRd_rd (s : State) (v : BitVec 64) : (s.setRd v).rd = v := rfl
@[simp] theorem State.setRd_rdV (s : State) (v : BitVec 64) : (s.setRd v).rdV = true := rfl
@[simp] theorem State.setRd_hdr (s : State) (v : BitVec 64) : (s.setRd v).hdr = s.hdr := rfl
@[simp] theorem State.setRd_hdrV (s : State) (v : BitVec 64) : (s.setRd v).hdrV = s.hdrV := rfl
@[simp] theorem State.setRd_si (s : State) (v : BitVec 64) : (s.setRd v).si = s.si := rfl
@[simp] theorem State.setRd_siV (s : State) (v : BitVec 64) : (s.setRd v).siV = s.siV := rfl
@[simp] theorem State.setRd_status (s : State) (v : BitVec 64) : (s.setRd v).status = s.status := rfl
@[simp] theorem State.setRd_inFlight (s : State) (v : BitVec 64) : (s.setRd v).inFlight = s.inFlight := rfl
@[simp] theorem State.setRd_hostQueue (s : State) (v : BitVec 64) : (s.setRd v).hostQueue = s.hostQueue := rfl
@[simp] theorem State.setRd_hostRead128 (s : State) (v : BitVec 64) : (s.setRd v).hostRead128 = s.hostRead128 := rfl

@[simp] theorem State.setHdr_bc (s : State) (h : HeaderRegs) : (s.setHdr h).bc = s.bc := rfl
@[simp] theorem State.setHdr_rd (s : State) (h : HeaderRegs) : (s.setHdr h).rd = s.rd := rfl
@[simp] theorem State.setHdr_rdV (s : State) (h : HeaderRegs) : (s.setHdr h).rdV = s.rdV := rfl
@[simp] theorem State.setHdr_hdr (s : State) (h : HeaderRegs) : (s.setHdr h).hdr = h := rfl
@[simp] theorem State.setHdr_hdrV (s : State) (h : HeaderRegs) : (s.setHdr h).hdrV = true := rfl
@[simp] theorem State.setHdr_si (s : State) (h : HeaderRegs) : (s.setHdr h).si = s.si := rfl
@[simp] theorem State.setHdr_siV (s : State) (h : HeaderRegs) : (s.setHdr h).siV = s.siV := rfl
@[simp] theorem State.setHdr_status (s : State) (h : HeaderRegs) : (s.setHdr h).status = s.status := rfl
@[simp] theorem State.setHdr_inFlight (s : State) (h : HeaderRegs) : (s.setHdr h).inFlight = s.inFlight := rfl
@[simp] theorem State.setHdr_hostQueue (s : State) (h : HeaderRegs) : (s.setHdr h).hostQueue = s.hostQueue := rfl
@[simp] theorem State.setHdr_hostRead128 (s : State) (h : HeaderRegs) : (s.setHdr h).hostRead128 = s.hostRead128 := rfl

@[simp] theorem State.setSi_bc (s : State) (r : Streaminfo) : (s.setSi r).bc = s.bc := rfl
@[simp] theorem State.setSi_rd (s : State) (r : Streaminfo) : (s.setSi r).rd = s.rd := rfl
@[simp] theorem State.setSi_rdV (s : State) (r : Streaminfo) : (s.setSi r).rdV = s.rdV := rfl
@[simp] theorem State.setSi_hdr (s : State) (r : Streaminfo) : (s.setSi r).hdr = s.hdr := rfl
@[simp] theorem State.setSi_hdrV (s : State) (r : Streaminfo) : (s.setSi r).hdrV = s.hdrV := rfl
@[simp] theorem State.setSi_si (s : State) (r : Streaminfo) : (s.setSi r).si = r := rfl
@[simp] theorem State.setSi_siV (s : State) (r : Streaminfo) : (s.setSi r).siV = true := rfl
@[simp] theorem State.setSi_status (s : State) (r : Streaminfo) : (s.setSi r).status = s.status := rfl
@[simp] theorem State.setSi_inFlight (s : State) (r : Streaminfo) : (s.setSi r).inFlight = s.inFlight := rfl
@[simp] theorem State.setSi_hostQueue (s : State) (r : Streaminfo) : (s.setSi r).hostQueue = s.hostQueue := rfl
@[simp] theorem State.setSi_hostRead128 (s : State) (r : Streaminfo) : (s.setSi r).hostRead128 = s.hostRead128 := rfl

@[simp] theorem State.setStatus_bc (s : State) (st : Status) : (s.setStatus st).bc = s.bc := rfl
@[simp] theorem State.setStatus_rd (s : State) (st : Status) : (s.setStatus st).rd = s.rd := rfl
@[simp] theorem State.setStatus_rdV (s : State) (st : Status) : (s.setStatus st).rdV = s.rdV := rfl
@[simp] theorem State.setStatus_hdr (s : State) (st : Status) : (s.setStatus st).hdr = s.hdr := rfl
@[simp] theorem State.setStatus_hdrV (s : State) (st : Status) : (s.setStatus st).hdrV = s.hdrV := rfl
@[simp] theorem State.setStatus_si (s : State) (st : Status) : (s.setStatus st).si = s.si := rfl
@[simp] theorem State.setStatus_siV (s : State) (st : Status) : (s.setStatus st).siV = s.siV := rfl
@[simp] theorem State.setStatus_status (s : State) (st : Status) : (s.setStatus st).status = st := rfl
@[simp] theorem State.setStatus_inFlight (s : State) (st : Status) : (s.setStatus st).inFlight = s.inFlight := rfl
@[simp] theorem State.setStatus_hostQueue (s : State) (st : Status) : (s.setStatus st).hostQueue = s.hostQueue := rfl
@[simp] theorem State.setStatus_hostRead128 (s : State) (st : Status) : (s.setStatus st).hostRead128 = s.hostRead128 := rfl

@[simp] theorem State.setInFlight_bc (s : State) (f : Option Flight) : (s.setInFlight f).bc = s.bc := rfl
@[simp] theorem State.setInFlight_rd (s : State) (f : Option Flight) : (s.setInFlight f).rd = s.rd := rfl
@[simp] theorem State.setInFlight_rdV (s : State) (f : Option Flight) : (s.setInFlight f).rdV = s.rdV := rfl
@[simp] theorem State.setInFlight_hdr (s : State) (f : Option Flight) : (s.setInFlight f).hdr = s.hdr := rfl
@[simp] theorem State.setInFlight_hdrV (s : State) (f : Option Flight) : (s.setInFlight f).hdrV = s.hdrV := rfl
@[simp] theorem State.setInFlight_si (s : State) (f : Option Flight) : (s.setInFlight f).si = s.si := rfl
@[simp] theorem State.setInFlight_siV (s : State) (f : Option Flight) : (s.setInFlight f).siV = s.siV := rfl
@[simp] theorem State.setInFlight_status (s : State) (f : Option Flight) : (s.setInFlight f).status = s.status := rfl
@[simp] theorem State.setInFlight_inFlight (s : State) (f : Option Flight) : (s.setInFlight f).inFlight = f := rfl
@[simp] theorem State.setInFlight_hostQueue (s : State) (f : Option Flight) : (s.setInFlight f).hostQueue = s.hostQueue := rfl
@[simp] theorem State.setInFlight_hostRead128 (s : State) (f : Option Flight) : (s.setInFlight f).hostRead128 = s.hostRead128 := rfl

@[simp] theorem State.setHostQueue_bc (s : State) (q : List HostInput) : (s.setHostQueue q).bc = s.bc := rfl
@[simp] theorem State.setHostQueue_rd (s : State) (q : List HostInput) : (s.setHostQueue q).rd = s.rd := rfl
@[simp] theorem State.setHostQueue_rdV (s : State) (q : List HostInput) : (s.setHostQueue q).rdV = s.rdV := rfl
@[simp] theorem State.setHostQueue_hdr (s : State) (q : List HostInput) : (s.setHostQueue q).hdr = s.hdr := rfl
@[simp] theorem State.setHostQueue_hdrV (s : State) (q : List HostInput) : (s.setHostQueue q).hdrV = s.hdrV := rfl
@[simp] theorem State.setHostQueue_si (s : State) (q : List HostInput) : (s.setHostQueue q).si = s.si := rfl
@[simp] theorem State.setHostQueue_siV (s : State) (q : List HostInput) : (s.setHostQueue q).siV = s.siV := rfl
@[simp] theorem State.setHostQueue_status (s : State) (q : List HostInput) : (s.setHostQueue q).status = s.status := rfl
@[simp] theorem State.setHostQueue_inFlight (s : State) (q : List HostInput) : (s.setHostQueue q).inFlight = s.inFlight := rfl
@[simp] theorem State.setHostQueue_hostQueue (s : State) (q : List HostInput) : (s.setHostQueue q).hostQueue = q := rfl
@[simp] theorem State.setHostQueue_hostRead128 (s : State) (q : List HostInput) : (s.setHostQueue q).hostRead128 = s.hostRead128 := rfl

@[simp] theorem State.setHostRead128_bc (s : State) (v : Option (BitVec 128)) : (s.setHostRead128 v).bc = s.bc := rfl
@[simp] theorem State.setHostRead128_rd (s : State) (v : Option (BitVec 128)) : (s.setHostRead128 v).rd = s.rd := rfl
@[simp] theorem State.setHostRead128_rdV (s : State) (v : Option (BitVec 128)) : (s.setHostRead128 v).rdV = s.rdV := rfl
@[simp] theorem State.setHostRead128_hdr (s : State) (v : Option (BitVec 128)) : (s.setHostRead128 v).hdr = s.hdr := rfl
@[simp] theorem State.setHostRead128_hdrV (s : State) (v : Option (BitVec 128)) : (s.setHostRead128 v).hdrV = s.hdrV := rfl
@[simp] theorem State.setHostRead128_si (s : State) (v : Option (BitVec 128)) : (s.setHostRead128 v).si = s.si := rfl
@[simp] theorem State.setHostRead128_siV (s : State) (v : Option (BitVec 128)) : (s.setHostRead128 v).siV = s.siV := rfl
@[simp] theorem State.setHostRead128_status (s : State) (v : Option (BitVec 128)) : (s.setHostRead128 v).status = s.status := rfl
@[simp] theorem State.setHostRead128_inFlight (s : State) (v : Option (BitVec 128)) : (s.setHostRead128 v).inFlight = s.inFlight := rfl
@[simp] theorem State.setHostRead128_hostQueue (s : State) (v : Option (BitVec 128)) : (s.setHostRead128 v).hostQueue = s.hostQueue := rfl
@[simp] theorem State.setHostRead128_hostRead128 (s : State) (v : Option (BitVec 128)) : (s.setHostRead128 v).hostRead128 = v := rfl

@[simp] theorem raise_bc (st : Status) (s : State) : (raise st s).bc = s.bc := rfl
@[simp] theorem raise_rd (st : Status) (s : State) : (raise st s).rd = s.rd := rfl
@[simp] theorem raise_rdV (st : Status) (s : State) : (raise st s).rdV = rdVAfter st s.rdV := rfl
@[simp] theorem raise_hdr (st : Status) (s : State) : (raise st s).hdr = s.hdr := rfl
@[simp] theorem raise_hdrV (st : Status) (s : State) : (raise st s).hdrV = hdrVAfter st s.hdrV := rfl
@[simp] theorem raise_si (st : Status) (s : State) : (raise st s).si = s.si := rfl
@[simp] theorem raise_siV (st : Status) (s : State) : (raise st s).siV = siVAfter st s.siV := rfl
@[simp] theorem raise_status (st : Status) (s : State) : (raise st s).status = st := rfl
@[simp] theorem raise_inFlight (st : Status) (s : State) : (raise st s).inFlight = s.inFlight := rfl
@[simp] theorem raise_hostQueue (st : Status) (s : State) : (raise st s).hostQueue = s.hostQueue := rfl
@[simp] theorem raise_hostRead128 (st : Status) (s : State) : (raise st s).hostRead128 = s.hostRead128 := rfl

@[simp] theorem latchHeader_bc (w : HeaderWord) (s : State) : (latchHeader w s).bc = s.bc := rfl
@[simp] theorem latchHeader_rd (w : HeaderWord) (s : State) : (latchHeader w s).rd = s.rd := rfl
@[simp] theorem latchHeader_rdV (w : HeaderWord) (s : State) : (latchHeader w s).rdV = s.rdV := rfl
@[simp] theorem latchHeader_hdr (w : HeaderWord) (s : State) : (latchHeader w s).hdr = headerRegsOf w := rfl
@[simp] theorem latchHeader_hdrV (w : HeaderWord) (s : State) : (latchHeader w s).hdrV = true := rfl
@[simp] theorem latchHeader_si (w : HeaderWord) (s : State) : (latchHeader w s).si = s.si := rfl
@[simp] theorem latchHeader_siV (w : HeaderWord) (s : State) : (latchHeader w s).siV = s.siV := rfl
@[simp] theorem latchHeader_status (w : HeaderWord) (s : State) : (latchHeader w s).status = .ok := rfl
@[simp] theorem latchHeader_inFlight (w : HeaderWord) (s : State) : (latchHeader w s).inFlight = s.inFlight := rfl
@[simp] theorem latchHeader_hostQueue (w : HeaderWord) (s : State) : (latchHeader w s).hostQueue = s.hostQueue := rfl
@[simp] theorem latchHeader_hostRead128 (w : HeaderWord) (s : State) : (latchHeader w s).hostRead128 = s.hostRead128 := rfl

@[simp] theorem applyReset_bc (s : State) : (applyReset s).bc = State.reset.bc := rfl
@[simp] theorem applyReset_rd (s : State) : (applyReset s).rd = State.reset.rd := rfl
@[simp] theorem applyReset_rdV (s : State) : (applyReset s).rdV = State.reset.rdV := rfl
@[simp] theorem applyReset_hdr (s : State) : (applyReset s).hdr = State.reset.hdr := rfl
@[simp] theorem applyReset_hdrV (s : State) : (applyReset s).hdrV = State.reset.hdrV := rfl
@[simp] theorem applyReset_si (s : State) : (applyReset s).si = State.reset.si := rfl
@[simp] theorem applyReset_siV (s : State) : (applyReset s).siV = State.reset.siV := rfl
@[simp] theorem applyReset_status (s : State) : (applyReset s).status = State.reset.status := rfl
@[simp] theorem applyReset_inFlight (s : State) : (applyReset s).inFlight = State.reset.inFlight := rfl
@[simp] theorem applyReset_hostQueue (s : State) : (applyReset s).hostQueue = s.hostQueue := rfl
@[simp] theorem applyReset_hostRead128 (s : State) : (applyReset s).hostRead128 = s.hostRead128 := rfl

@[simp] theorem State.setInFlight_setHostQueue (s : State) (f : Option Flight) (q : List HostInput) :
    (s.setInFlight f).setHostQueue q = (s.setHostQueue q).setInFlight f := rfl

@[simp] theorem State.setInFlight_same (s : State) (h : s.inFlight = none) : s.setInFlight none = s := by
  cases s; simp_all [State.setInFlight]

end Sys2Proof.Machine
end

