-- ==== Sys2Proof/Laws/Ops.lean ====
section
/-!
SUPPORT. The shared operations, each said once: the operand lanes, the cursor's wrap and read, READ's body, the ten
reads of SIDEC, the error entry, and how requests run.
-/

namespace Sys2Proof

namespace Machine

/-! ### Legal operands -/

theorem legalLoadLen_iff (len : Arg) : legalLoadLen len = true ↔ len.toNat ≤ 34 := decide_eq_true_iff
theorem legalReadWidth_iff (n : Arg) : legalReadWidth n = true ↔ 1 ≤ n.toNat ∧ n.toNat ≤ 64 := decide_eq_true_iff
theorem legalHdecCount_iff (cnt : Arg) : legalHdecCount cnt = true ↔ cnt.toNat ≤ 4 := decide_eq_true_iff

/-- Every 24-bit plen is legal (R81). -/
theorem legalSidecLen_true (plen : Arg) : legalSidecLen plen = true :=
  decide_eq_true (show plen.toNat ≤ 16777215 by have := plen.isLt; omega)

/-! ### Operand lanes -/

/-- A lane is R84's slice of the port. -/
theorem byteLane_eq (w : WData) (i : Nat) : byteLane w i = BitVec.ofNat 8 (portByte w i) := by
  apply BitVec.eq_of_toNat_eq
  simp [byteLane, portByte, bitSlice, Config.bufBytes, BitVec.extractLsb', Nat.shiftRight_eq_div_pow]

theorem laneBytes_eq (w : WData) (n : Nat) : laneBytes w n = portBytes w n :=
  List.map_congr_left fun i _ => byteLane_eq w i

@[simp] theorem length_portBytes (w : WData) (n : Nat) : (portBytes w n).length = n := by simp [portBytes]

/-- SIDEC's operand is wdata[0..33]. -/
theorem payloadBytes_eq (w : WData) : payloadBytes w = portBytes w 34 := laneBytes_eq w 34

/-- LOAD's operand is wdata[0 .. len − 1]. -/
theorem loadBytes_eq (len : Arg) (w : WData) : loadBytes len w = portBytes w len.toNat := laneBytes_eq w _

/-- The fields of a command word as R80's slices. -/
theorem cmd_fields (cmd : CmdWord) :
    (cmdOp cmd).toNat = bitSlice cmd.toNat 31 30 ∧ (cmdZero cmd).toNat = bitSlice cmd.toNat 29 24 ∧
      (cmdArg cmd).toNat = bitSlice cmd.toNat 23 0 := by
  simp [cmdOp, cmdZero, cmdArg, bitSlice, Nat.shiftRight_eq_div_pow]

/-- The fields of a header word as R71's slices. -/
theorem hdr_fields (w : HeaderWord) :
    hdrIsLast w = decide (bitSlice w.toNat 31 31 = 1) ∧ (hdrType w).toNat = bitSlice w.toNat 30 24 ∧
      (hdrLength w).toNat = bitSlice w.toNat 23 0 := by
  refine ⟨?_, by simp [hdrType, bitSlice, Nat.shiftRight_eq_div_pow],
    by simp [hdrLength, bitSlice, Nat.shiftRight_eq_div_pow]⟩
  simp [hdrIsLast, bitSlice, BitVec.getLsbD, Nat.testBit_eq_decide_div_mod_eq]

/-! ### The cursor -/

theorem BitCursor.wrap_inv (b : List Byte) (h : b.length ≤ 34) : (BitCursor.wrap b).Inv := by
  have : b.length % 64 = b.length := Nat.mod_eq_of_lt (by omega)
  simp [BitCursor.Inv, BitCursor.wrap, Config.bufBytes, this, h]

/-- Inside the invariant a read within the remaining bits gives the bit field of R14 and moves the offset by n. -/
theorem BitCursor.read_of_inv (c : BitCursor) (n : Nat) (hc : c.Inv) (h : n ≤ c.remaining) :
    c.read n = some (bitField c.buf.bytes c.off.toNat n, { c with off := BitVec.ofNat 9 (c.off.toNat + n) }) := by
  obtain ⟨-, hb, hl, -, ho⟩ := hc
  have hlen : c.buf.bytes.length = c.len.toNat := by simp [Memory.bytes, hl]
  have hr : c.buf.readBits c.off.toNat n = some (bitField c.buf.bytes c.off.toNat n) := by
    conv_lhs => rw [hb]
    apply Memory.readBits_ofBytes
    rw [hlen]; unfold BitCursor.remaining at h; omega
  simp [BitCursor.read, hr, Nat.not_lt.mpr h]

/-- All a read can do. -/
theorem BitCursor.read_cases {c c' : BitCursor} {n v : Nat} (h : c.read n = some (v, c')) :
    n ≤ c.remaining ∧ c.buf.readBits c.off.toNat n = some v ∧
      c' = { c with off := BitVec.ofNat 9 (c.off.toNat + n) } := by
  unfold BitCursor.read at h
  split at h
  · cases h
  · split at h
    · cases h
    · next hlt _ _ hv => cases h; exact ⟨Nat.not_lt.mp hlt, hv, rfl⟩

/-- The offset does not wrap (R106). -/
theorem BitCursor.toNat_off_add (c : BitCursor) (n : Nat) (h : n ≤ c.remaining) (hn : 1 ≤ n) :
    (BitVec.ofNat 9 (c.off.toNat + n)).toNat = c.off.toNat + n := by
  have := c.len.isLt
  unfold BitCursor.remaining at h
  simp only [BitVec.toNat_ofNat]
  omega

theorem BitCursor.advance_inv (c : BitCursor) (n : Nat) (hc : c.Inv) (h : n ≤ c.remaining) :
    ({ c with off := BitVec.ofNat 9 (c.off.toNat + n) } : BitCursor).Inv := by
  obtain ⟨hw, hb, hl, hm, ho⟩ := hc
  have := c.len.isLt
  refine ⟨hw, hb, hl, hm, ?_⟩
  unfold BitCursor.remaining at h
  simp only [BitVec.toNat_ofNat]
  omega

/-! ### READ's body -/

theorem readAtCursor_short (n : Nat) (s : State) (h : s.bc.remaining < n) :
    readAtCursor n s = .next (raise .outOfBits s) := by simp [readAtCursor, h]

/-- Inside the invariant READ's body never faults. -/
theorem readAtCursor_of_inv (n : Nat) (s : State) (hs : s.bc.Inv) (h : n ≤ s.bc.remaining) :
    readAtCursor n s = .next
      (((s.setCursor { s.bc with off := BitVec.ofNat 9 (s.bc.off.toNat + n) }).setRd
        (BitVec.ofNat 64 (bitField s.bytes s.bc.off.toNat n))).setStatus .ok) := by
  simp [readAtCursor, Nat.not_lt.mpr h, BitCursor.read_of_inv s.bc n hs h, State.bytes]

/-- All READ's body can do when it answers a next state. -/
theorem readAtCursor_cases {n : Nat} {s t : State} (h : readAtCursor n s = .next t) :
    (s.bc.remaining < n ∧ t = raise .outOfBits s) ∨
      (n ≤ s.bc.remaining ∧ ∃ v, s.bc.buf.readBits s.bc.off.toNat n = some v ∧
        t = ((s.setCursor { s.bc with off := BitVec.ofNat 9 (s.bc.off.toNat + n) }).setRd
          (BitVec.ofNat 64 v)).setStatus .ok) := by
  unfold readAtCursor at h
  split at h
  · next hlt => cases h; exact .inl ⟨hlt, rfl⟩
  · split at h
    · cases h
    · next hlt _ v c hr =>
      obtain ⟨hn, hv, rfl⟩ := BitCursor.read_cases hr
      cases h
      exact .inr ⟨hn, v, hv, rfl⟩

/-! ### The ten reads of SIDEC -/

theorem BitCursor.remaining_at (buf : Memory) (k : Nat) (h : k ≤ 272) :
    (⟨buf, 34#6, BitVec.ofNat 9 k⟩ : BitCursor).remaining = 272 - k := by
  simp only [BitCursor.remaining, BitVec.toNat_ofNat]
  omega

/-- One of the ten reads: the cursor stands at stream bit k of a 34-byte buffer. -/
theorem BitCursor.read_at (b : List Byte) (hb : b.length = 34) (k n : Nat) (h : k + n ≤ 272) :
    (⟨Memory.ofBytes b, 34#6, BitVec.ofNat 9 k⟩ : BitCursor).read n =
      some (bitField b k n, ⟨Memory.ofBytes b, 34#6, BitVec.ofNat 9 (k + n)⟩) := by
  have hk : (BitVec.ofNat 9 k).toNat = k := by simp only [BitVec.toNat_ofNat]; omega
  have hr := BitCursor.remaining_at (Memory.ofBytes b) k (by omega)
  simp only [BitCursor.read, hr, hk, Memory.readBits_ofBytes b k n (by omega)]
  rw [if_neg (by omega)]

/-- No read inside SIDEC fails, and they end at stream bit 272 (R138). -/
theorem readStreaminfo_wrap (b : List Byte) (hb : b.length = 34) :
    readStreaminfo (BitCursor.wrap b) = some (recordOfBits b, ⟨Memory.ofBytes b, 34#6, 272#9⟩) := by
  have hw : BitCursor.wrap b = ⟨Memory.ofBytes b, 34#6, BitVec.ofNat 9 0⟩ := by simp [BitCursor.wrap, hb]
  have h128 : bitField b 144 64 * 2 ^ 64 + bitField b 208 64 = bitField b 144 128 :=
    (bitField_add b 144 64 64).symm
  rw [hw]
  unfold readStreaminfo
  simp [BitCursor.read_at b hb, recordOfBits, ← h128]

/-- SIDEC's success, said once (R137). -/
theorem decodePayload_eq (b : List Byte) (hb : b.length = 34) (s : State) :
    decodePayload b s = .next
      (((s.setCursor ⟨Memory.ofBytes b, 34#6, 272#9⟩).setSi (recordOfBits b)).setStatus .ok) := by
  simp [decodePayload, readStreaminfo_wrap b hb]

/-! ### The error entry -/

/-- R190, the codes: a unit's flag is cleared by that unit's error alone. -/
theorem raise_illegalCommand (s : State) : raise .illegalCommand s = s.setStatus .illegalCommand := rfl
theorem raise_outOfBits (s : State) : raise .outOfBits s = { s with rdV := false, status := .outOfBits } := rfl
theorem raise_unexpectedEof (s : State) :
    raise .unexpectedEof s = { s with hdrV := false, status := .unexpectedEof } := rfl
theorem raise_insufficientData (s : State) :
    raise .insufficientData s = { s with siV := false, status := .insufficientData } := rfl

/-! ### Sequencing and requests -/

@[simp] theorem andThen_next {α β : Type} (a : α) (f : α → Host.Outcome β Fault Refusal) :
    andThen (.next a) f = f a := rfl

/-- All a sequence that answers a next state can have done. -/
theorem andThen_eq_next {α β : Type} {o : Host.Outcome α Fault Refusal} {f : α → Host.Outcome β Fault Refusal} {b : β}
    (h : andThen o f = .next b) : ∃ a, o = .next a ∧ f a = .next b := by
  cases o with
  | next a => exact ⟨a, rfl, h⟩
  | fault r => cases h
  | refused r => cases h

theorem runRequest_ok {r : Request} {i : Instr} (h : decode r = .ok i) (s : State) : runRequest r s = exec i s := by
  simp [runRequest, h]

/-- All a step can do: reset, complete the command in flight, run the next request, or stay idle. -/
theorem step_cases (s : State) :
    (∃ rest, s.hostQueue = .reset :: rest ∧ step s = .next (applyReset (s.setHostQueue rest))) ∨
      (∃ f, s.inFlight = some f ∧ step s = completeFlight f s) ∨
      (∃ r rest, s.inFlight = none ∧ s.hostQueue = .request r :: rest ∧
        step s = runRequest r (s.setHostQueue rest)) ∨
      (s.inFlight = none ∧ s.hostQueue = [] ∧ step s = .next s) := by
  match hq : s.hostQueue, hf : s.inFlight with
  | .reset :: rest, _ => exact .inl ⟨rest, rfl, by simp [step, nextStep, hq]⟩
  | [], some f => exact .inr (.inl ⟨f, rfl, by simp [step, nextStep, hq, hf]⟩)
  | .request r :: rest, some f => exact .inr (.inl ⟨f, rfl, by simp [step, nextStep, hq, hf]⟩)
  | .request r :: rest, none => exact .inr (.inr (.inl ⟨r, rest, rfl, rfl, by simp [step, nextStep, hq, hf]⟩))
  | [], none => exact .inr (.inr (.inr ⟨rfl, rfl, by simp [step, nextStep, hq, hf]⟩))

end Machine

end Sys2Proof
end

