-- ==== Sys2Proof/Laws/Exec.lean ====
section
/-!
SUPPORT. What a next state of `exec` can be, said once: each instruction either ends in an error of its own, or has its
one effect.
-/

namespace Sys2Proof.Machine

/-- LOAD: bound cursor, or IllegalCommand. -/
theorem execLoad_cases {len : Arg} {wdata : WData} {s t : State} (h : execLoad len wdata s = .next t) :
    (len.toNat ≤ 34 ∧ t = (s.setCursor (BitCursor.wrap (loadBytes len wdata))).setStatus .ok) ∨
      (34 < len.toNat ∧ t = raise .illegalCommand s) := by
  unfold execLoad at h
  split at h
  · next hl => cases h; exact .inl ⟨(legalLoadLen_iff len).mp hl, rfl⟩
  · next hl => cases h; exact .inr ⟨by rw [legalLoadLen_iff] at hl; omega, rfl⟩

/-- READ: its body, or IllegalCommand. -/
theorem execRead_cases {n : Arg} {s t : State} (h : execRead n s = .next t) :
    (1 ≤ n.toNat ∧ n.toNat ≤ 64 ∧ readAtCursor n.toNat s = .next t) ∨
      ((n.toNat = 0 ∨ 64 < n.toNat) ∧ t = raise .illegalCommand s) := by
  unfold execRead at h
  split at h
  · next hl =>
    obtain ⟨h1, h64⟩ := (legalReadWidth_iff n).mp hl
    exact .inl ⟨h1, h64, h⟩
  · next hl =>
    cases h
    rw [legalReadWidth_iff] at hl
    exact .inr ⟨by omega, rfl⟩

/-- HDEC: a latched header, UnexpectedEof, or IllegalCommand. -/
theorem execHdec_cases {cnt : Arg} {wdata : WData} {s t : State} (h : execHdec cnt wdata s = .next t) :
    (cnt.toNat = 4 ∧ t = latchHeader (headerOperand wdata) s) ∨ (cnt.toNat < 4 ∧ t = raise .unexpectedEof s) ∨
      (4 < cnt.toNat ∧ t = raise .illegalCommand s) := by
  unfold execHdec at h
  split at h
  · next hl =>
    have hl := (legalHdecCount_iff cnt).mp hl
    split at h
    · next hc => cases h; exact .inr (.inl ⟨hc, rfl⟩)
    · next hc =>
      have hc : ¬ cnt.toNat < 4 := hc
      cases h; exact .inl ⟨by omega, rfl⟩
  · next hl => cases h; exact .inr (.inr ⟨by rw [legalHdecCount_iff] at hl; omega, rfl⟩)

/-- SIDEC: a decoded payload, or InsufficientData. -/
theorem execSidec_cases {plen : Arg} {wdata : WData} {s t : State} (h : execSidec plen wdata s = .next t) :
    (34 ≤ plen.toNat ∧ t =
        ((s.setCursor ⟨Memory.ofBytes (portBytes wdata 34), 34#6, 272#9⟩).setSi
          (recordOfBits (portBytes wdata 34))).setStatus .ok) ∨
      (plen.toNat < 34 ∧ t = raise .insufficientData s) := by
  unfold execSidec at h
  rw [if_pos (legalSidecLen_true plen)] at h
  split at h
  · next hp => cases h; exact .inr ⟨hp, rfl⟩
  · next hp =>
    rw [payloadBytes_eq, decodePayload_eq _ (length_portBytes wdata 34)] at h
    cases h
    exact .inl ⟨Nat.not_lt.mp hp, rfl⟩

/-- A payload row always decodes. -/
theorem execSi272_eq (r : Streaminfo) (s : State) :
    execSi272 r s = .next
      (((s.setCursor ⟨Memory.ofBytes (portBytes (packSI r) 34), 34#6, 272#9⟩).setSi
        (recordOfBits (portBytes (packSI r) 34))).setStatus .ok) := by
  unfold execSi272
  rw [payloadBytes_eq, decodePayload_eq _ (length_portBytes _ 34)]

/-- A row of format BLKHDR always latches a header word. -/
theorem exec_headerRow {i : Instr} (h : (blkhdrRow i).isSome = true) (s : State) :
    ∃ w, encode i = .header w ∧ exec i s = .next (latchHeader w s) := by
  cases i <;> first | exact ⟨_, rfl, rfl⟩ | simp [blkhdrRow] at h

/-- READ128: the first read fails, the second fails, or both succeed. -/
theorem execRead128_cases {s t : State} (h : execRead128 s = .next t) :
    ∃ u, readAtCursor 64 s = .next u ∧
      ((u.status ≠ .ok ∧ t = u.setHostRead128 none) ∨
        (u.status = .ok ∧ ∃ v, readAtCursor 64 u = .next v ∧
          t = v.setHostRead128 (if v.status = .ok then some (u.rd ++ v.rd) else none))) := by
  obtain ⟨u, hu, h⟩ := andThen_eq_next h
  refine ⟨u, hu, ?_⟩
  split at h
  · next hok =>
    obtain ⟨v, hv, h⟩ := andThen_eq_next h
    cases h
    exact .inr ⟨hok, v, hv, rfl⟩
  · next hok => cases h; exact .inl ⟨hok, rfl⟩

/-- All a next state of `exec` can be, for every instruction. -/
theorem exec_cases {i : Instr} {s t : State} (h : exec i s = .next t) :
    (∃ len wdata, i = .load len wdata ∧
      ((len.toNat ≤ 34 ∧ t = (s.setCursor (BitCursor.wrap (loadBytes len wdata))).setStatus .ok) ∨
        (34 < len.toNat ∧ t = raise .illegalCommand s))) ∨
    (∃ n, i = .read n ∧
      ((1 ≤ n.toNat ∧ n.toNat ≤ 64 ∧ readAtCursor n.toNat s = .next t) ∨
        ((n.toNat = 0 ∨ 64 < n.toNat) ∧ t = raise .illegalCommand s))) ∨
    (∃ cnt wdata, i = .hdec cnt wdata ∧
      ((cnt.toNat = 4 ∧ t = latchHeader (headerOperand wdata) s) ∨ (cnt.toNat < 4 ∧ t = raise .unexpectedEof s) ∨
        (4 < cnt.toNat ∧ t = raise .illegalCommand s))) ∨
    (∃ plen wdata, i = .sidec plen wdata ∧
      ((34 ≤ plen.toNat ∧ t =
          ((s.setCursor ⟨Memory.ofBytes (portBytes wdata 34), 34#6, 272#9⟩).setSi
            (recordOfBits (portBytes wdata 34))).setStatus .ok) ∨
        (plen.toNat < 34 ∧ t = raise .insufficientData s))) ∨
    ((blkhdrRow i).isSome = true ∧ ∃ w, encode i = .header w ∧ t = latchHeader w s) ∨
    (∃ r, i = .si272 r ∧ t =
      ((s.setCursor ⟨Memory.ofBytes (portBytes (packSI r) 34), 34#6, 272#9⟩).setSi
        (recordOfBits (portBytes (packSI r) 34))).setStatus .ok) ∨
    (i = .read128 ∧ execRead128 s = .next t) := by
  by_cases hi : (blkhdrRow i).isSome = true
  · obtain ⟨w, e, hw⟩ := exec_headerRow hi s
    rw [hw] at h; cases h
    exact .inr (.inr (.inr (.inr (.inl ⟨hi, w, e, rfl⟩))))
  · cases i <;> simp only [blkhdrRow, Option.isSome_some, not_true_eq_false] at hi
    case load len wdata => exact .inl ⟨_, _, rfl, execLoad_cases h⟩
    case read n => exact .inr (.inl ⟨_, rfl, execRead_cases h⟩)
    case hdec cnt wdata => exact .inr (.inr (.inl ⟨_, _, rfl, execHdec_cases h⟩))
    case sidec plen wdata => exact .inr (.inr (.inr (.inl ⟨_, _, rfl, execSidec_cases h⟩)))
    case si272 r =>
      have h : execSi272 r s = .next t := h
      rw [execSi272_eq] at h; cases h
      exact .inr (.inr (.inr (.inr (.inr (.inl ⟨_, rfl, rfl⟩)))))
    case read128 => exact .inr (.inr (.inr (.inr (.inr (.inr ⟨rfl, h⟩)))))

/-- All a next state of `runRequest` can be. -/
theorem runRequest_cases {r : Request} {s t : State} (h : runRequest r s = .next t) :
    (∃ i, decode r = .ok i ∧ exec i s = .next t) ∨ t = raise .illegalCommand s := by
  unfold runRequest at h
  split at h
  · exact .inl ⟨_, by assumption, h⟩
  · cases h; exact .inr rfl

/-- READ's body at one cursor, from two states: the same cursor, status and flag after it, the same value when it
succeeds, and nothing of the other groups touched (R31, R32). -/
theorem readAtCursor_agree {n : Nat} {s s' t t' : State} (hb : s.bc = s'.bc) (h : readAtCursor n s = .next t)
    (h' : readAtCursor n s' = .next t') :
    t.bc = t'.bc ∧ t.status = t'.status ∧ t.rdV = t'.rdV ∧ (t.status = .ok → t.rd = t'.rd) ∧
      (t.status ≠ .ok → t.rd = s.rd ∧ t'.rd = s'.rd) := by
  unfold readAtCursor at h h'
  rw [← hb] at h'
  split at h
  · rw [if_pos (by assumption)] at h'
    cases h; cases h'
    simp [hb, rdVAfter]
  · rw [if_neg (by assumption)] at h'
    split at h
    · cases h
    · next e =>
      rw [e] at h'
      cases h; cases h'
      simp

end Sys2Proof.Machine
end

