-- ==== Sys2Proof/Laws/PerInstr.lean ====
section
/-!
SUPPORT. Family RoundTrip: decoding the words of an instruction gives it back, one lemma for each constructor; before
them the fields of a packed command word, header word and payload.
-/

namespace Sys2Proof.Laws

/-- The command word's fields, read back (R80). -/
theorem commandWord_fields (op : BitVec 2) (arg : Arg) :
    cmdOp (commandWord op arg) = op ∧ cmdZero (commandWord op arg) = 0#6 ∧ cmdArg (commandWord op arg) = arg := by
  unfold cmdOp cmdZero cmdArg commandWord
  refine ⟨?_, ?_, ?_⟩ <;>
    (repeat rw [BitVec.extractLsb'_append_eq_of_le (by decide)]) <;>
    (try rw [BitVec.extractLsb'_append_eq_of_add_le (by decide)]) <;> exact BitVec.extractLsb'_eq_self

/-- The header word's fields, read back (R71, R124). -/
theorem packHdr_fields (isLast : Bool) (code : BitVec 7) (length : BitVec 24) :
    hdrIsLast (packHdr isLast code length) = isLast ∧ hdrType (packHdr isLast code length) = code ∧
      hdrLength (packHdr isLast code length) = length := by
  refine ⟨?_, ?_, ?_⟩
  · have h : (BitVec.ofBool isLast ++ code ++ length).getLsbD 31 = isLast := by
      rw [BitVec.getLsbD_append, if_neg (by decide), BitVec.getLsbD_append, if_neg (by decide)]
      cases isLast <;> rfl
    exact h
  · unfold hdrType packHdr
    rw [BitVec.extractLsb'_append_eq_of_le (by decide), BitVec.extractLsb'_append_eq_of_add_le (by decide)]
    exact BitVec.extractLsb'_eq_self
  · unfold hdrLength packHdr
    rw [BitVec.extractLsb'_append_eq_of_add_le (by decide)]
    exact BitVec.extractLsb'_eq_self

/-- The payload's fields, read back (R75, R142). -/
theorem unpackSI_packSI (r : Streaminfo) : unpackSI (packSI r) = r := by
  obtain ⟨f1, f2, f3, f4, f5, f6, f7, f8, f9⟩ := r
  simp only [unpackSI, packSI, Streaminfo.mk.injEq]
  refine ⟨?_, ?_, ?_, ?_, ?_, ?_, ?_, ?_, ?_⟩ <;>
    (repeat rw [BitVec.extractLsb'_append_eq_of_le (by decide)]) <;>
    (try rw [BitVec.extractLsb'_append_eq_of_add_le (by decide)]) <;> exact BitVec.extractLsb'_eq_self

/-- A packed header word is read as the row of its code. -/
theorem decodeHeader_packHdr (isLast : Bool) (code : BitVec 7) (length : BitVec 24) :
    decodeHeader (packHdr isLast code length) = headerRow code isLast length := by
  obtain ⟨h1, h2, h3⟩ := packHdr_fields isLast code length
  simp [decodeHeader, h1, h2, h3]

/-- A property of a short word, value by value. -/
theorem forall_word {w : Nat} {P : BitVec w → Prop} (h : ∀ k, k < 2 ^ w → P (BitVec.ofNat w k)) (x : BitVec w) :
    P x := by
  have := h x.toNat x.isLt
  rwa [BitVec.ofNat_toNat, BitVec.setWidth_eq] at this

namespace RoundTrip

/-- Decoding the words of an instruction gives it back. -/
def Statement (i : Instr) : Prop := decode (encode i) = .ok i

theorem load (len : Arg) (wdata : WData) : Statement (.load len wdata) := by
  obtain ⟨h1, h2, h3⟩ := commandWord_fields 0#2 len
  simp [Statement, encode, decode, decodeCommand, h1, h2, h3]

theorem read (n : Arg) : Statement (.read n) := by
  obtain ⟨h1, h2, h3⟩ := commandWord_fields 1#2 n
  simp [Statement, encode, decode, decodeCommand, h1, h2, h3]

theorem hdec (cnt : Arg) (wdata : WData) : Statement (.hdec cnt wdata) := by
  obtain ⟨h1, h2, h3⟩ := commandWord_fields 2#2 cnt
  simp [Statement, encode, decode, decodeCommand, h1, h2, h3]

theorem sidec (plen : Arg) (wdata : WData) : Statement (.sidec plen wdata) := by
  obtain ⟨h1, h2, h3⟩ := commandWord_fields 3#2 plen
  simp [Statement, encode, decode, decodeCommand, h1, h2, h3]

theorem btStreaminfo (isLast : Bool) (length : BitVec 24) : Statement (.btStreaminfo isLast length) := by
  simp [Statement, encode, decode, decodeHeader_packHdr, headerRow]

theorem btPadding (isLast : Bool) (length : BitVec 24) : Statement (.btPadding isLast length) := by
  simp [Statement, encode, decode, decodeHeader_packHdr, headerRow]

theorem btApplication (isLast : Bool) (length : BitVec 24) : Statement (.btApplication isLast length) := by
  simp [Statement, encode, decode, decodeHeader_packHdr, headerRow]

theorem btSeektable (isLast : Bool) (length : BitVec 24) : Statement (.btSeektable isLast length) := by
  simp [Statement, encode, decode, decodeHeader_packHdr, headerRow]

theorem btVorbiscomment (isLast : Bool) (length : BitVec 24) : Statement (.btVorbiscomment isLast length) := by
  simp [Statement, encode, decode, decodeHeader_packHdr, headerRow]

theorem btCuesheet (isLast : Bool) (length : BitVec 24) : Statement (.btCuesheet isLast length) := by
  simp [Statement, encode, decode, decodeHeader_packHdr, headerRow]

theorem btPicture (isLast : Bool) (length : BitVec 24) : Statement (.btPicture isLast length) := by
  simp [Statement, encode, decode, decodeHeader_packHdr, headerRow]

theorem btReserved7 (isLast : Bool) (length : BitVec 24) : Statement (.btReserved7 isLast length) := by
  simp [Statement, encode, decode, decodeHeader_packHdr, headerRow]

theorem btReserved8to15 (low : BitVec 3) (isLast : Bool) (length : BitVec 24) :
    Statement (.btReserved8to15 low isLast length) := by
  refine forall_word (P := fun low => Statement (.btReserved8to15 low isLast length)) (fun k hk => ?_) low
  interval_cases k <;> simp [Statement, encode, decode, decodeHeader_packHdr, headerRow]

theorem btReserved16to31 (low : BitVec 4) (isLast : Bool) (length : BitVec 24) :
    Statement (.btReserved16to31 low isLast length) := by
  refine forall_word (P := fun low => Statement (.btReserved16to31 low isLast length)) (fun k hk => ?_) low
  interval_cases k <;> simp [Statement, encode, decode, decodeHeader_packHdr, headerRow]

theorem btReserved32to63 (low : BitVec 5) (isLast : Bool) (length : BitVec 24) :
    Statement (.btReserved32to63 low isLast length) := by
  refine forall_word (P := fun low => Statement (.btReserved32to63 low isLast length)) (fun k hk => ?_) low
  interval_cases k <;> simp [Statement, encode, decode, decodeHeader_packHdr, headerRow]

theorem btReserved64to95 (low : BitVec 5) (isLast : Bool) (length : BitVec 24) :
    Statement (.btReserved64to95 low isLast length) := by
  refine forall_word (P := fun low => Statement (.btReserved64to95 low isLast length)) (fun k hk => ?_) low
  interval_cases k <;> simp [Statement, encode, decode, decodeHeader_packHdr, headerRow]

theorem btReserved96to111 (low : BitVec 4) (isLast : Bool) (length : BitVec 24) :
    Statement (.btReserved96to111 low isLast length) := by
  refine forall_word (P := fun low => Statement (.btReserved96to111 low isLast length)) (fun k hk => ?_) low
  interval_cases k <;> simp [Statement, encode, decode, decodeHeader_packHdr, headerRow]

theorem btReserved112to119 (low : BitVec 3) (isLast : Bool) (length : BitVec 24) :
    Statement (.btReserved112to119 low isLast length) := by
  refine forall_word (P := fun low => Statement (.btReserved112to119 low isLast length)) (fun k hk => ?_) low
  interval_cases k <;> simp [Statement, encode, decode, decodeHeader_packHdr, headerRow]

theorem btReserved120to123 (low : BitVec 2) (isLast : Bool) (length : BitVec 24) :
    Statement (.btReserved120to123 low isLast length) := by
  refine forall_word (P := fun low => Statement (.btReserved120to123 low isLast length)) (fun k hk => ?_) low
  interval_cases k <;> simp [Statement, encode, decode, decodeHeader_packHdr, headerRow]

theorem btReserved124to125 (low : BitVec 1) (isLast : Bool) (length : BitVec 24) :
    Statement (.btReserved124to125 low isLast length) := by
  refine forall_word (P := fun low => Statement (.btReserved124to125 low isLast length)) (fun k hk => ?_) low
  interval_cases k <;> simp [Statement, encode, decode, decodeHeader_packHdr, headerRow]

theorem btReserved126 (isLast : Bool) (length : BitVec 24) : Statement (.btReserved126 isLast length) := by
  simp [Statement, encode, decode, decodeHeader_packHdr, headerRow]

theorem btForbidden (isLast : Bool) (length : BitVec 24) : Statement (.btForbidden isLast length) := by
  simp [Statement, encode, decode, decodeHeader_packHdr, headerRow]

theorem si272 (record : Streaminfo) : Statement (.si272 record) := by
  simp [Statement, encode, decode, unpackSI_packSI]

theorem read128 : Statement .read128 := rfl

end RoundTrip

end Sys2Proof.Laws
end

