-- ==== Sys2Proof/Laws/Ports.lean ====
section
/-!
SUPPORT. Sequences of clock edges: how they join, and what the edges before a completing edge do.
-/

namespace Sys2Proof.Machine

theorem clockEdges_append (a b : List PortIn) (s : State) :
    clockEdges (a ++ b) s = andThen (clockEdges a s) (clockEdges b) := by
  induction a generalizing s with
  | nil => rfl
  | cons i a ih =>
    simp only [List.cons_append, clockEdges]
    cases clockEdge i s <;> simp [andThen, ih]

/-- Edges of a busy block with rst = 0, fewer than are still to come, count down and change nothing else (R85). -/
theorem clockEdges_countdown (f : Flight) (s : State) (later : List PortIn) (hl : later.length < f.remaining)
    (hr : ∀ i ∈ later, i.rst = false) :
    clockEdges later (s.setInFlight (some f)) =
      .next (s.setInFlight (some { f with remaining := f.remaining - later.length })) := by
  induction later generalizing f with
  | nil => rfl
  | cons i later ih =>
    simp only [List.length_cons] at hl ⊢
    have hi : i.rst = false := hr i List.mem_cons_self
    have he : clockEdge i (s.setInFlight (some f)) =
        .next (s.setInFlight (some { f with remaining := f.remaining - 1 })) := by
      simp only [clockEdge, hi, State.setInFlight_inFlight]
      rw [if_neg (by simp), if_neg (by omega)]
      rfl
    have := ih { f with remaining := f.remaining - 1 } (by simp only; omega) fun j hj => hr j (List.mem_cons_of_mem i hj)
    simp only [clockEdges, he, andThen_next, this]
    rw [Nat.sub_sub, Nat.add_comm 1]

end Sys2Proof.Machine
end

