-- ==== Sys2Proof/Laws/Source.lean ====
section
/-!
SUPPORT. The byte source: reading it goes forward only, whatever its ending (R64, R166).
-/

namespace Sys2Proof.Machine

@[simp] theorem length_repeatBytes (unit : List Byte) (k : Nat) : (repeatBytes unit k).length = k * unit.length := by
  induction k with
  | zero => simp [repeatBytes]
  | succ k ih => simp only [repeatBytes, List.length_append, ih, Nat.succ_mul]; omega

theorem repeatBytes_add (unit : List Byte) (j k : Nat) :
    repeatBytes unit (j + k) = repeatBytes unit j ++ repeatBytes unit k := by
  induction j with
  | zero => simp [repeatBytes]
  | succ j ih => rw [Nat.succ_add]; simp [repeatBytes, ih]

/-- However many repetitions are listed, as long as they reach `n` bytes, the first `n` are the same. -/
theorem take_repeatBytes {bytes unit : List Byte} {n j k : Nat} (hj : n ≤ bytes.length + j * unit.length)
    (hk : n ≤ bytes.length + k * unit.length) :
    (bytes ++ repeatBytes unit j).take n = (bytes ++ repeatBytes unit k).take n := by
  have longer : ∀ j m : Nat, n ≤ bytes.length + j * unit.length →
      (bytes ++ repeatBytes unit (j + m)).take n = (bytes ++ repeatBytes unit j).take n := by
    intro j m hj
    rw [repeatBytes_add, ← List.append_assoc, List.take_append_of_le_length]
    simpa using hj
  rw [← longer j k hj, ← longer k j hk, Nat.add_comm]

theorem le_repeat_length (first : Byte) (others : List Byte) (n : Nat) :
    n ≤ n * (first :: others).length := Nat.le_mul_of_pos_right n (by simp)

/-- An endless source always has the bytes asked for. -/
theorem ByteSource.length_upcoming_repeats (bytes : List Byte) (first : Byte) (others : List Byte) (n : Nat) :
    ((⟨bytes, .repeats first others⟩ : ByteSource).upcoming n).length = n := by
  have := le_repeat_length first others n
  simp only [ByteSource.upcoming, List.length_take, List.length_append, length_repeatBytes]
  omega

/-- All a read that succeeds can do: it finds the next `n` bytes, and what is to come afterwards is what was to come
after them. -/
theorem ByteSource.readExact_got {src rest : ByteSource} {n : Nat} {found : List Byte}
    (h : src.readExact n = .got found rest) :
    found = src.upcoming n ∧ found.length = n ∧ rest.ending = src.ending ∧
      ∀ k, rest.upcoming k = (src.upcoming (n + k)).drop n := by
  obtain ⟨bytes, ending⟩ := src
  -- reading listed bytes of a source that repeats
  have rep : ∀ (first : Byte) (others b : List Byte) (k : Nat), n ≤ b.length →
      ((b.drop n ++ repeatBytes (first :: others) k).take k) =
        ((b ++ repeatBytes (first :: others) (n + k)).take (n + k)).drop n := by
    intro first others b k hb
    have := le_repeat_length first others k
    have := le_repeat_length first others (n + k)
    rw [List.drop_take, List.drop_append_of_le_length hb, Nat.add_sub_cancel_left]
    exact take_repeatBytes (by omega) (by omega)
  unfold ByteSource.readExact at h
  split at h
  · next hn =>
    cases h
    simp only at hn
    refine ⟨?_, by simpa using hn, rfl, fun k => ?_⟩
    · cases ending <;> simp [ByteSource.upcoming, List.take_append_of_le_length hn]
    · cases ending with
      | eof => simp [ByteSource.upcoming, List.drop_take]
      | ioFault => simp [ByteSource.upcoming, List.drop_take]
      | repeats first others => exact rep first others bytes k hn
  · next hn =>
    simp only at hn
    split at h
    · cases h
    · cases h
    · next first others he =>
      simp only at he
      subst he
      cases h
      have hc : n ≤ (n / (first :: others).length + 1) * (first :: others).length := by
        rw [Nat.mul_comm]
        exact (Nat.lt_mul_div_succ n (by simp)).le
      have hlen : n ≤ (bytes ++ repeatBytes (first :: others) (n / (first :: others).length + 1)).length := by
        rw [List.length_append, length_repeatBytes]; omega
      have := le_repeat_length first others n
      refine ⟨take_repeatBytes (by omega) (by omega), (List.length_take).trans (Nat.min_eq_left hlen), rfl, fun k => ?_⟩
      have := le_repeat_length first others (n + k)
      simp only [ByteSource.upcoming]
      rw [rep first others _ k hlen, List.append_assoc, ← repeatBytes_add, take_repeatBytes]
      · rw [Nat.add_mul]; omega
      · omega

/-- A read of an endless source succeeds (R227). -/
theorem ByteSource.readExact_endless {src : ByteSource} (h : src.endless = true) (n : Nat) :
    ∃ found rest, src.readExact n = .got found rest ∧ rest.endless = true := by
  obtain ⟨bytes, ending⟩ := src
  cases ending with
  | eof => cases h
  | ioFault => cases h
  | repeats first others =>
    unfold ByteSource.readExact
    split
    · exact ⟨_, _, rfl, rfl⟩
    · exact ⟨_, _, rfl, rfl⟩

end Sys2Proof.Machine
end

