-- ==== Sys2Proof/Machine/CommandText.lean ====
section
/-!
DEFINITION. The line form of a command sequence (R90) and its encoding (R91): one command a line, a decimal operand,
two-digit hexadecimal bytes, `;` starts a comment, "Upper and lower case are not distinguished". The pseudo-command
READ128 (R92) is a line of its own. How strict it is where R90 is silent: log 15.
-/

namespace Sys2Proof.Machine

/-- What a line holds. -/
inductive LineContent where
  | blank
  | request (r : Request)
  | malformed
  deriving DecidableEq, Repr

/-- The line without its comment. -/
def stripComment : List Char → List Char
  | [] => []
  | c :: rest => if c = ';' then [] else c :: stripComment rest

/-- Blanks and the comma part the words of a line. -/
def isSeparator (c : Char) : Bool := c = ' ' || c = '\t' || c = '\r' || c = '\n' || c = ','

/-- The words of a line, `word` being the letters of the current one in reverse. -/
def lineWords (word : List Char) : List Char → List (List Char)
  | [] => if word = [] then [] else [word.reverse]
  | c :: rest =>
    if isSeparator c then
      if word = [] then lineWords [] rest else word.reverse :: lineWords [] rest
    else lineWords (c :: word) rest

/-- The value of a hexadecimal digit, either case. -/
def hexDigit (c : Char) : Option Nat :=
  if '0'.toNat ≤ c.toNat ∧ c.toNat ≤ '9'.toNat then some (c.toNat - '0'.toNat)
  else if 'a'.toNat ≤ c.toNat ∧ c.toNat ≤ 'f'.toNat then some (c.toNat - 'a'.toNat + 10)
  else if 'A'.toNat ≤ c.toNat ∧ c.toNat ≤ 'F'.toNat then some (c.toNat - 'A'.toNat + 10)
  else none

/-- A decimal number continued from `acc`. -/
def decimalFrom (acc : Nat) : List Char → Option Nat
  | [] => some acc
  | c :: rest =>
    if '0'.toNat ≤ c.toNat ∧ c.toNat ≤ '9'.toNat then decimalFrom (acc * 10 + (c.toNat - '0'.toNat)) rest
    else none

/-- A command's operand: a decimal number that fits `arg`. -/
def argOfWord (w : List Char) : Option Arg :=
  if w = [] then none
  else
    match decimalFrom 0 w with
    | some v => if v < 2 ^ 24 then some (BitVec.ofNat 24 v) else none
    | none => none

/-- A two-digit hexadecimal byte. -/
def byteOfWord : List Char → Option Byte
  | [a, b] =>
    match hexDigit a, hexDigit b with
    | some x, some y => some (BitVec.ofNat 8 (16 * x + y))
    | _, _ => none
  | _ => none

/-- The listed bytes, first byte in document order first. -/
def bytesOfWords : List (List Char) → Option (List Byte)
  | [] => some []
  | w :: rest =>
    match byteOfWord w, bytesOfWords rest with
    | some b, some bs => some (b :: bs)
    | _, _ => none

/-- The words a line lists after its operand, as write data: "bytes of wdata not listed are 00" (R90). DESIGN CHOICE
(log 15): R90 shows as many bytes as the operand says and is silent on another count; here the operand and the list are
taken each as written, whatever the count, up to the 34 bytes there are. -/
def requestOfOperands (op : BitVec 2) (arg : Option Arg) (bytes : Option (List Byte)) : LineContent :=
  match arg, bytes with
  | some a, some bs =>
    if bs.length ≤ Config.bufBytes then .request (.command (commandWord op a) (wdataOfBytes bs)) else .malformed
  | _, _ => .malformed

/-- The encoding of a line's words (R91). -/
def encodeWords : List (List Char) → LineContent
  | [] => .blank
  | [m] => if m.map Char.toUpper = ['R', 'E', 'A', 'D', '1', '2', '8'] then .request .read128 else .malformed
  | m :: operand :: bytes =>
    let name := m.map Char.toUpper
    if name = ['L', 'O', 'A', 'D'] then requestOfOperands 0#2 (argOfWord operand) (bytesOfWords bytes)
    else if name = ['R', 'E', 'A', 'D'] then
      if bytes = [] then requestOfOperands 1#2 (argOfWord operand) (some []) else .malformed
    else if name = ['H', 'D', 'E', 'C'] then requestOfOperands 2#2 (argOfWord operand) (bytesOfWords bytes)
    else if name = ['S', 'I', 'D', 'E', 'C'] then requestOfOperands 3#2 (argOfWord operand) (bytesOfWords bytes)
    else .malformed

/-- The encoding of one line (R90, R91). -/
def encodeLine (line : List Char) : LineContent := encodeWords (lineWords [] (stripComment line))

end Sys2Proof.Machine
end

