-- ==== Sys2Proof/Tests/Slice0.lean ====
section
/-!
SUPPORT. The model's own tests: the smoke test of WellFormed, words written out from the spec's encodings, the vectors
V, S and P of spec/95_test_vectors.md (each test names its vector), and for every obligation with hypotheses a state and
operands that meet them.
-/

namespace Sys2Proof.Tests

set_option Elab.async false

open Sys2Proof Sys2Proof.Machine

/-! ### Helpers -/

def bytesOf (l : List Nat) : List Byte := l.map (BitVec.ofNat 8)

/-- The reset state with a buffer and an offset. -/
def withBuffer (b : List Nat) (off : Nat) : State :=
  { State.reset with bc := ⟨Memory.ofBytes (bytesOf b), BitVec.ofNat 6 b.length, BitVec.ofNat 9 off⟩ }

/-- What a test looks at in a next state. -/
def look {α : Type} (o : Host.Outcome State Fault Refusal) (f : State → α) : Option α :=
  match o with
  | .next t => some (f t)
  | .fault _ => none
  | .refused _ => none

def lookHost {α : Type} (o : Host.Outcome ParseSystem Fault Refusal) (f : ParseSystem → α) : Option α :=
  match o with
  | .next t => some (f t)
  | .fault _ => none
  | .refused _ => none

/-- STATUS, RD, RD_V, BC.off. -/
def readView (t : State) : Nat × Nat × Bool × Nat := (t.status.code.toNat, t.rd.toNat, t.rdV, t.bc.off.toNat)

/-- STATUS, HDR.is_last, HDR.type, HDR.length, HDR_V. -/
def hdrView (t : State) : Nat × Bool × Nat × Nat × Bool :=
  (t.status.code.toNat, t.hdr.isLast, t.hdr.type.toNat, t.hdr.length.toNat, t.hdrV)

/-- STATUS, SI_V, BC.len, BC.off. -/
def siView (t : State) : Nat × Bool × Nat × Nat := (t.status.code.toNat, t.siV, t.bc.len.toNat, t.bc.off.toNat)

/-- The state with one request presented. -/
def presented (s : State) (r : Request) : State := { s with hostQueue := [.request r] }

def v22 : Payload := 0x1000100000000E0040000AC442F000A17FC00123456789ABCDEFFEDCBA9876543210#272
def v22Record : Streaminfo := ⟨4096, 4096, 14, 16384, 44100, 1, 15, 10584000, 0x0123456789ABCDEFFEDCBA9876543210⟩
def v23 : Payload := 0x000102030405060708090A0B0C0D0E0F101112131415161718191A1B1C1D1E1F2021#272
def v23Record : Streaminfo := ⟨1, 515, 263430, 460809, 41136, 6, 0, 56070443025, 0x12131415161718191A1B1C1D1E1F2021⟩
/-- The record with every register bit set: something for a test to lose. -/
def fullState : State :=
  { withBuffer [0xDE, 0xAD] 12 with
    rd := 0xDEA, rdV := true, hdr := ⟨true, 4, 298⟩, hdrV := true, si := v22Record, siV := true }

/-! ### WellFormed: ill-formed terms are refused, their legal neighbours are not (R81, V9) -/

theorem test_wf_load_35 : Instr.wellFormed (.load 35 0) = false := by decide
theorem test_wf_load_34 : Instr.wellFormed (.load 34 0) = true := by decide
theorem test_wf_read_0 : Instr.wellFormed (.read 0) = false := by decide
theorem test_wf_read_65 : Instr.wellFormed (.read 65) = false := by decide
theorem test_wf_read_1_64 : (Instr.wellFormed (.read 1) && Instr.wellFormed (.read 64)) = true := by decide
theorem test_wf_hdec_5 : Instr.wellFormed (.hdec 5 0) = false := by decide
theorem test_wf_hdec_4 : Instr.wellFormed (.hdec 4 0) = true := by decide
theorem test_wf_sidec_max : Instr.wellFormed (.sidec 0xFFFFFF 0) = true := by decide
theorem test_wf_reserved_3 : BlockType.wellFormed (.reserved 3) = false := by decide
theorem test_wf_reserved_127 : BlockType.wellFormed (.reserved 127) = false := by decide

/-! ### Decoding: words written out from R80, R71, R75 and R86 -/

/-- op = 00, zero = 000000, arg = 34; lane 0 of the write data is A5. -/
theorem test_decode_load :
    decode (.command 0b00000000000000000000000000100010#32 (0xA5#8 ++ 0#264)) = .ok (.load 34 (0xA5#8 ++ 0#264)) := rfl
/-- op = 01, zero = 000000, arg = 64. -/
theorem test_decode_read : decode (.command 0b01000000000000000000000001000000#32 0) = .ok (.read 64) := rfl
/-- op = 10, zero = 000000, arg = 4. -/
theorem test_decode_hdec :
    decode (.command 0b10000000000000000000000000000100#32 v22) = .ok (.hdec 4 v22) := rfl
/-- op = 11, zero = 000000, arg = 2^24 − 1. -/
theorem test_decode_sidec :
    decode (.command 0b11000000111111111111111111111111#32 v23) = .ok (.sidec 16777215 v23) := rfl
/-- V9: a nonzero `zero` field. -/
theorem test_decode_reserved_bits :
    decode (.command 0x41000008#32 0) = .error .reservedBitsSet ∧
      decode (.command 0xFF000000#32 0) = .error .reservedBitsSet := ⟨rfl, rfl⟩
/-- The rows for the codes 0 to 6 (words of table 2.2). -/
theorem test_decode_btStreaminfo : decode (.header 0x80000022#32) = .ok (.btStreaminfo true 34) := rfl
theorem test_decode_btPadding : decode (.header 0x81001000#32) = .ok (.btPadding true 4096) := rfl
theorem test_decode_btApplication : decode (.header 0x02000004#32) = .ok (.btApplication false 4) := rfl
theorem test_decode_btSeektable : decode (.header 0x03000012#32) = .ok (.btSeektable false 18) := rfl
theorem test_decode_btVorbiscomment : decode (.header 0x8400012A#32) = .ok (.btVorbiscomment true 298) := rfl
theorem test_decode_btCuesheet : decode (.header 0x0500018C#32) = .ok (.btCuesheet false 396) := rfl
theorem test_decode_btPicture : decode (.header 0x860A0B0C#32) = .ok (.btPicture true 658188) := rfl
/-- The ten reserved rows: codes 7, 9 = 8+1, 21 = 16+5, 63 = 32+31, 64, 106 = 96+10, 117 = 112+5, 122 = 120+2,
125 = 124+1, 126. -/
theorem test_decode_btReserved7 : decode (.header 0x07123456#32) = .ok (.btReserved7 false 1193046) := rfl
theorem test_decode_btReserved8to15 : decode (.header 0x09000002#32) = .ok (.btReserved8to15 1 false 2) := rfl
theorem test_decode_btReserved16to31 : decode (.header 0x15000007#32) = .ok (.btReserved16to31 5 false 7) := rfl
theorem test_decode_btReserved32to63 : decode (.header 0x3F000000#32) = .ok (.btReserved32to63 31 false 0) := rfl
theorem test_decode_btReserved64to95 : decode (.header 0xC0000000#32) = .ok (.btReserved64to95 0 true 0) := rfl
theorem test_decode_btReserved96to111 : decode (.header 0xEA000003#32) = .ok (.btReserved96to111 10 true 3) := rfl
theorem test_decode_btReserved112to119 : decode (.header 0x75000001#32) = .ok (.btReserved112to119 5 false 1) := rfl
theorem test_decode_btReserved120to123 : decode (.header 0x7A000001#32) = .ok (.btReserved120to123 2 false 1) := rfl
theorem test_decode_btReserved124to125 : decode (.header 0xFD000001#32) = .ok (.btReserved124to125 1 true 1) := rfl
theorem test_decode_btReserved126 : decode (.header 0x7E000001#32) = .ok (.btReserved126 false 1) := rfl
theorem test_decode_btForbidden : decode (.header 0xFFFFFFFF#32) = .ok (.btForbidden true 16777215) := rfl
/-- V23's payload and its nine fields (R75). -/
theorem test_decode_si272 : (decode (.payload v23)).toOption = some (.si272 v23Record) := by decide +kernel
/-- The 64-bit word of the table's row READ128 (R86). -/
theorem test_decode_read128 : decodeTableWord 64 0x4000004040000040 = some .read128 := rfl

/-- R73: every type code has exactly one of the eighteen rows, the one whose mask and match it meets (R86). -/
theorem test_decode_rows_of_codes :
    (List.range 128).all (fun c =>
      (List.range 18).all fun k =>
        match blkhdrRows[k]? with
        | some (mask, pattern) =>
          decide (((c * 2 ^ 24) &&& mask = pattern) ↔ blkhdrRow (decodeHeader (BitVec.ofNat 32 (c * 2 ^ 24))) = some k)
        | none => false) = true := by decide +kernel

/-! ### Words of the table, and the very next step -/

theorem test_table_read : decodeTableWord 32 0x40000003 = some (.read 3) := rfl
theorem test_table_header : decodeTableWord 32 0x81001000 = some (.btPadding true 4096) := rfl
theorem test_table_payload : decodeTableWord 272 0 = some (.si272 zeroStreaminfo) := by decide +kernel
theorem test_table_no_row : decodeTableWord 64 0x4000004040000041 = none ∧ decodeTableWord 16 0 = none := ⟨rfl, rfl⟩

/-- P2, first line: READ 8 right after reset runs out of bits. -/
theorem test_fetch_read : look (step (State.reset.withFetchWord 32 0x40000008)) readView = some (1, 0, false, 0) := rfl
/-- The row BT_PADDING as the first instruction after reset. -/
theorem test_fetch_header :
    look (step (State.reset.withFetchWord 32 0x81001000)) hdrView = some (0, true, 1, 4096, true) := rfl

/-! ### LOAD and READ -/

/-- R101's example, from a state with other contents. -/
theorem test_load_replaces_buffer :
    look (exec (.load 2 (0xA53C#16 ++ 0#256)) fullState)
      (fun t => (t.bytes, t.bc.len.toNat, t.bc.off.toNat, t.rd.toNat, t.rdV)) =
        some (bytesOf [0xA5, 0x3C], 2, 0, 0xDEA, true) := rfl
/-- V9: LOAD 35 changes STATUS alone. -/
theorem test_load_35 : look (exec (.load 35 0) fullState) id = some { fullState with status := .illegalCommand } := rfl

/-- V1, second row. -/
theorem test_read_across_bytes : look (exec (.read 7) (withBuffer [0xA5, 0x3C] 3)) readView = some (0, 20, true, 10) :=
  rfl
/-- V4: 64 bits from bit 3, nine bytes touched. -/
theorem test_read_64_unaligned :
    look (exec (.read 64) (withBuffer [0x12, 0x34, 0x56, 0x78, 0x9A, 0xBC, 0xDE, 0xF0, 0x0F] 3)) readView =
      some (0, 0x91A2B3C4D5E6F780, true, 67) := rfl
/-- V8: a failing READ consumes nothing, and keeps RD. -/
theorem test_read_out_of_bits : look (exec (.read 5) fullState) readView = some (1, 0xDEA, false, 12) := rfl
/-- V9: READ 0 and READ 65. -/
theorem test_read_illegal :
    look (exec (.read 0) fullState) id = some { fullState with status := .illegalCommand } ∧
      look (exec (.read 65) fullState) id = some { fullState with status := .illegalCommand } := ⟨rfl, rfl⟩

/-- P6: the md5 by READ128. -/
theorem test_read128_md5 :
    look (exec .read128 { State.reset with bc := ⟨Memory.ofBytes (payloadBytes v22), 34, 144⟩ })
      (fun t => (t.hostRead128, t.rd, t.bc.off.toNat)) =
        some (some 0x0123456789ABCDEFFEDCBA9876543210#128, 0xFEDCBA9876543210#64, 272) := by decide +kernel
/-- R92: the second READ fails; 64 bits are consumed and no value results. -/
theorem test_read128_second_fails :
    look (exec .read128 (withBuffer [1, 2, 3, 4, 5, 6, 7, 8, 9] 0)) (fun t => (readView t, t.hostRead128)) =
      some ((1, 0x0102030405060708, false, 64), none) := rfl

/-! ### HDEC and the header rows (table 2.2) -/

theorem test_hdec_vorbis :
    look (exec (.hdec 4 (0x8400012A#32 ++ 0#240)) State.reset) hdrView = some (0, true, 4, 298, true) := rfl
/-- "HDR.* unchanged, whatever the bytes". -/
theorem test_hdec_3_bytes : look (exec (.hdec 3 (0x80#8 ++ 0#264)) fullState) hdrView = some (2, true, 4, 298, false) :=
  rfl

theorem test_btStreaminfo : look (exec (.btStreaminfo true 34) fullState) hdrView = some (0, true, 0, 34, true) := rfl
theorem test_btPadding : look (exec (.btPadding true 4096) fullState) hdrView = some (0, true, 1, 4096, true) := rfl
theorem test_btApplication : look (exec (.btApplication false 4) fullState) hdrView = some (0, false, 2, 4, true) := rfl
theorem test_btSeektable : look (exec (.btSeektable false 18) fullState) hdrView = some (0, false, 3, 18, true) := rfl
theorem test_btVorbiscomment :
    look (exec (.btVorbiscomment false 298) fullState) hdrView = some (0, false, 4, 298, true) := rfl
theorem test_btCuesheet : look (exec (.btCuesheet false 396) fullState) hdrView = some (0, false, 5, 396, true) := rfl
theorem test_btPicture : look (exec (.btPicture true 658188) fullState) hdrView = some (0, true, 6, 658188, true) := rfl
theorem test_btReserved7 :
    look (exec (.btReserved7 false 1193046) fullState) hdrView = some (0, false, 7, 1193046, true) := rfl
/-- P5 (b). -/
theorem test_btReserved8to15 : look (exec (.btReserved8to15 1 false 2) fullState) hdrView = some (0, false, 9, 2, true) :=
  rfl
theorem test_btReserved16to31 :
    look (exec (.btReserved16to31 15 false 0) fullState) hdrView = some (0, false, 31, 0, true) := rfl
theorem test_btReserved32to63 :
    look (exec (.btReserved32to63 31 false 0) fullState) hdrView = some (0, false, 63, 0, true) := rfl
theorem test_btReserved64to95 : look (exec (.btReserved64to95 0 true 0) fullState) hdrView = some (0, true, 64, 0, true) :=
  rfl
theorem test_btReserved96to111 :
    look (exec (.btReserved96to111 15 false 0) fullState) hdrView = some (0, false, 111, 0, true) := rfl
theorem test_btReserved112to119 :
    look (exec (.btReserved112to119 7 false 0) fullState) hdrView = some (0, false, 119, 0, true) := rfl
theorem test_btReserved120to123 :
    look (exec (.btReserved120to123 3 false 0) fullState) hdrView = some (0, false, 123, 0, true) := rfl
theorem test_btReserved124to125 :
    look (exec (.btReserved124to125 1 false 0) fullState) hdrView = some (0, false, 125, 0, true) := rfl
theorem test_btReserved126 : look (exec (.btReserved126 false 1) fullState) hdrView = some (0, false, 126, 1, true) := rfl
theorem test_btForbidden :
    look (exec (.btForbidden true 16777215) fullState) hdrView = some (0, true, 127, 16777215, true) := rfl

/-! ### SIDEC -/

/-- V22 whole. -/
theorem test_sidec_v22 :
    look (exec (.sidec 34 v22) State.reset) (fun t => (t.si, siView t)) =
      some (v22Record, (0, true, 34, 272)) := by decide +kernel
/-- V26: SIDEC 33 clears SI_V and keeps the registers and the cursor. -/
theorem test_sidec_33 :
    look (exec (.sidec 33 v23) fullState) (fun t => (t.si, siView t)) = some (v22Record, (3, false, 2, 12)) := rfl
/-- V23 as the row SI272. -/
theorem test_si272_v23 :
    look (exec (.si272 v23Record) fullState) (fun t => (t.si, siView t, t.bytes)) =
      some (v23Record, (0, true, 34, 272), bytesOf (List.range 34)) := by decide +kernel

/-! ### Steps, statuses and ports -/

/-- V9: the last row, IllegalCommand before InsufficientData. -/
theorem test_step_illegal_word :
    look (step (presented fullState (.command 0xFF000000#32 0))) id =
      some { fullState with status := .illegalCommand } := rfl
/-- R84: wdata[0] occupies port bits 271:264. -/
theorem test_lane_0 : byteLane (0xA5#8 ++ 0#264) 0 = 0xA5#8 := by decide +kernel

/-- R215: an edge with rst = 1 resets a busy block. -/
theorem test_edge_reset :
    look (clockEdge ⟨true, true, 0x40000008#32, 0⟩ { fullState with inFlight := some ⟨0x00000000#32, 0, 3⟩ }) id =
      some State.reset := rfl
/-- R85: an idle block accepts; the next edges count down; the last one completes with rsp_valid. -/
theorem test_edge_countdown :
    look (clockEdge ⟨false, true, 0, 0⟩ { fullState with inFlight := some ⟨0x00000000#32, 0, 2⟩ })
      (fun t => (t.busy, readView t)) = some (true, (0, 0xDEA, true, 12)) := rfl
theorem test_edge_completes :
    look (clockEdge ⟨false, true, 0xFFFFFFFF#32, 0⟩ { fullState with inFlight := some ⟨0x00000000#32, 0, 1⟩ })
      (fun t => (t.busy, t.bc.len.toNat, t.status.code.toNat)) = some (false, 0, 0) ∧
      rspAfterEdge ⟨false, true, 0xFFFFFFFF#32, 0⟩ { fullState with inFlight := some ⟨0x00000000#32, 0, 1⟩ } = true :=
  ⟨rfl, rfl⟩

/-! ### The line form (R90, R91) -/

/-- R91's example, `HDEC 4, 80 00 00 22`. -/
theorem test_line_hdec :
    encodeLine ['H', 'D', 'E', 'C', ' ', '4', ',', ' ', '8', '0', ' ', '0', '0', ' ', '0', '0', ' ', '2', '2'] =
      .request (.command 0x80000004#32 (0x80000022#32 ++ 0#240)) := by decide +kernel
/-- Lower case and a comment. -/
theorem test_line_comment :
    encodeLine ['r', 'e', 'a', 'd', ' ', '1', '2', ' ', ';', ' ', 'x'] = .request (.command 0x4000000C#32 0) := by
  decide +kernel

/-! ### The host -/

def magicBytes : List Nat := [0x66, 0x4C, 0x61, 0x43]

/-- S1: "fLac" is BadMagic with the bytes found. -/
theorem test_magic_mismatch :
    validateMagic ⟨bytesOf [0x66, 0x4C, 0x61, 0x63, 1], .eof⟩ =
      .error (.badMagic (bytesOf [0x66, 0x4C, 0x61, 0x63])) := rfl
theorem test_magic_short : validateMagic ⟨bytesOf [0x66, 0x4C, 0x61], .eof⟩ = .error .unexpectedEof := rfl

/-- P3: two blocks, all fifty bytes consumed, DONE. -/
theorem test_host_p3 :
    lookHost ((ParseSystem.start
        ⟨bytesOf (magicBytes ++ [0, 0, 0, 0x22]) ++ payloadBytes v22 ++ bytesOf [0x81, 0, 0, 4, 0, 0, 0, 0], .eof⟩).run 3)
      (fun h => (h.phase, h.parsed, h.source.bytes, h.sourceOpen)) =
        some (.done, [⟨false, .streaminfo, 34, some v22Record⟩, ⟨true, .padding, 4, none⟩], [], false) := by
  decide +kernel
/-- P5 (a): InsufficientData. -/
theorem test_host_p5a :
    lookHost ((ParseSystem.start ⟨bytesOf (magicBytes ++ [0x80, 0, 0, 0x14] ++ List.replicate 20 7), .eof⟩).run 2)
      (fun h => (h.phase, h.parsed, siView h.block)) = some (.failed .insufficientData, [], (3, false, 0, 0)) := by
  decide +kernel
/-- P5 (b): UnexpectedBlockType(9), the payload unread. -/
theorem test_host_p5b :
    lookHost ((ParseSystem.start ⟨bytesOf (magicBytes ++ [9, 0, 0, 2, 0xAA, 0xBB]), .eof⟩).run 2)
      (fun h => (h.phase, h.source.bytes)) = some (.failed (.unexpectedBlockType 9), bytesOf [0xAA, 0xBB]) := by
  decide +kernel
/-- P5 (c): TruncatedHeader with no command issued. -/
theorem test_host_p5c :
    lookHost ((ParseSystem.start ⟨bytesOf (magicBytes ++ [0x80, 0]), .eof⟩).run 2) (fun h => (h.phase, h.block)) =
      some (.failed .truncatedHeader, State.reset) := rfl

/-- R227: two turns of an endless chain of empty Padding blocks, none of them the last. -/
theorem test_host_endless :
    lookHost ((ParseSystem.start ⟨bytesOf magicBytes, .repeats 1 (bytesOf [0, 0, 0])⟩).run 3)
      (fun h => (h.phase, h.parsed, h.sourceOpen)) =
        some (.running, [⟨false, .padding, 0, none⟩, ⟨false, .padding, 0, none⟩], true) := by decide +kernel

/-! ### Witnesses: for each obligation with hypotheses, a state and operands that meet them together -/

/-- Nine bytes with the cursor at bit 3: 69 bits remain. -/
def nineBytes : State := withBuffer [0x12, 0x34, 0x56, 0x78, 0x9A, 0xBC, 0xDE, 0xF0, 0x0F] 3

/-- A full buffer at its start: 272 bits remain. -/
def fullBuffer : State := { State.reset with bc := ⟨Memory.ofBytes (payloadBytes v22), 34, 0⟩ }

theorem witness_ResetStateValues :
    1 ≤ (1#24 : Arg).toNat ∧ (1#24 : Arg).toNat ≤ 64 ∧ 1 ≤ (64#24 : Arg).toNat ∧ (64#24 : Arg).toNat ≤ 64 := by
  decide +kernel
theorem witness_StepKeepsCursorInvariant :
    (presented nineBytes (.command 0x40000040#32 0)).Inv ∧
      ∃ t, step (presented nineBytes (.command 0x40000040#32 0)) = .next t := ⟨by decide +kernel, _, rfl⟩
theorem witness_StepAlwaysCompletes : ({ fullBuffer with inFlight := some ⟨0xC0000022#32, v22, 1⟩ } : State).Inv := by
  decide +kernel
theorem witness_ClockEdgeKeepsCursorInvariant :
    ({ nineBytes with inFlight := some ⟨0x40000040#32, 0, 1⟩ } : State).Inv := by decide +kernel
theorem witness_StepRunsDecodedInstruction :
    (presented nineBytes (.header 0x81001000#32)).inFlight = none ∧
      (presented nineBytes (.header 0x81001000#32)).hostQueue = .request (.header 0x81001000#32) :: [] ∧
      decode (.header 0x81001000#32) = .ok (.btPadding true 4096) := ⟨rfl, rfl, rfl⟩
theorem witness_IdleBlockHoldsItsRegisters : fullState.inFlight = none ∧ fullState.hostQueue = [] := ⟨rfl, rfl⟩
theorem witness_ResetStepFromAnyState :
    ({ fullState with inFlight := some ⟨0, 0, 2⟩, hostQueue := [.reset] } : State).hostQueue = .reset :: [] := rfl

theorem witness_LoadCompletes_34 : (34#24 : Arg).toNat ≤ 34 := by decide +kernel
theorem witness_LoadCompletes_0 : (0#24 : Arg).toNat ≤ 34 := by decide +kernel
/-- LOAD 34, LOAD 35 and LOAD 0 with a nonzero `zero` field. -/
theorem witness_LoadCommand :
    fullState.inFlight = none ∧
      (∀ cmd : CmdWord, (presented fullState (.command cmd v22)).hostQueue = .request (.command cmd v22) :: []) ∧
      bitSlice (0x00000022#32).toNat 31 30 = 0 ∧ bitSlice (0x00000023#32).toNat 31 30 = 0 ∧
      bitSlice (0x3F000000#32).toNat 31 30 = 0 ∧ bitSlice (0x3F000000#32).toNat 29 24 ≠ 0 :=
  ⟨rfl, fun _ => rfl, by decide +kernel, by decide +kernel, by decide +kernel, by decide +kernel⟩

theorem witness_ReadCompletes_64 :
    nineBytes.Inv ∧ 1 ≤ (64#24).toNat ∧ (64#24).toNat ≤ 64 ∧
      (64#24).toNat ≤ 8 * nineBytes.bc.len.toNat - nineBytes.bc.off.toNat := by decide +kernel
theorem witness_ReadCompletes_1 :
    nineBytes.Inv ∧ 1 ≤ (1#24).toNat ∧ (1#24).toNat ≤ 64 ∧
      (1#24).toNat ≤ 8 * nineBytes.bc.len.toNat - nineBytes.bc.off.toNat := by decide +kernel
/-- 4 bits remain: READ 5 is out of range, READ 4 is not. -/
theorem witness_ReadOutOfRange :
    fullState.Inv ∧ 8 * fullState.bc.len.toNat - fullState.bc.off.toNat < (5#24).toNat ∧
      (4#24).toNat = 8 * fullState.bc.len.toNat - fullState.bc.off.toNat := by decide +kernel
/-- READ 4, READ 5 (out of bits), READ 0 and READ 65. -/
theorem witness_ReadCommand :
    fullState.Inv ∧ fullState.inFlight = none ∧
      (∀ cmd : CmdWord, (presented fullState (.command cmd 0)).hostQueue = .request (.command cmd 0) :: []) ∧
      bitSlice (0x40000004#32).toNat 31 30 = 1 ∧ bitSlice (0x40000005#32).toNat 31 30 = 1 ∧
      bitSlice (0x40000000#32).toNat 31 30 = 1 ∧ bitSlice (0x40000041#32).toNat 31 30 = 1 :=
  ⟨by decide +kernel, rfl, fun _ => rfl, by decide +kernel, by decide +kernel, by decide +kernel, by decide +kernel⟩
theorem witness_ReadStopsOnAbsentByte :
    let s : State := { State.reset with bc := ⟨Memory.ofBytes (bytesOf [0xA5]), 2, 4⟩ }
    1 ≤ (8#24).toNat ∧ (8#24).toNat ≤ 64 ∧ (8#24).toNat ≤ 8 * s.bc.len.toNat - s.bc.off.toNat ∧
      s.bc.off.toNat ≤ 11 ∧ 11 < s.bc.off.toNat + (8#24).toNat ∧ s.bc.buf.readByte (11 / 8) = none := by decide +kernel
theorem witness_ReadConcatenation :
    nineBytes.Inv ∧ 1 ≤ (1#24).toNat ∧ 1 ≤ (63#24).toNat ∧ (64#24).toNat = (1#24).toNat + (63#24).toNat ∧
      (64#24).toNat ≤ 64 ∧ (64#24).toNat ≤ 8 * nineBytes.bc.len.toNat - nineBytes.bc.off.toNat := by decide +kernel
theorem witness_ReadSequenceSpellsTheBuffer :
    nineBytes.Inv ∧ (∀ n ∈ [5#24, 64#24], 1 ≤ n.toNat ∧ n.toNat ≤ 64) ∧
      ([5#24, 64#24].map BitVec.toNat).sum ≤ 8 * nineBytes.bc.len.toNat - nineBytes.bc.off.toNat :=
  ⟨by decide +kernel, by simp, by decide +kernel⟩
theorem witness_AlignedReadIsBigEndian :
    fullBuffer.Inv ∧ fullBuffer.bc.off.toNat = 8 * 0 ∧ (64#24).toNat = 8 * 8 ∧ 0 + 8 ≤ fullBuffer.bc.len.toNat := by
  decide +kernel
/-- The same 16 bits at offset 3 and at offset 8 of two buffers. -/
theorem witness_ReadDependsOnItsBitsAlone :
    let s := withBuffer [0xF5, 0x79, 0xBF] 3
    let u := withBuffer [0x00, 0xAB, 0xCD] 8
    s.Inv ∧ u.Inv ∧ 1 ≤ (16#24).toNat ∧ (16#24).toNat ≤ 64 ∧
      (16#24).toNat ≤ 8 * s.bc.len.toNat - s.bc.off.toNat ∧ (16#24).toNat ≤ 8 * u.bc.len.toNat - u.bc.off.toNat ∧
      ∀ i, i < (16#24).toNat → streamBitOf s.bytes (s.bc.off.toNat + i) = streamBitOf u.bytes (u.bc.off.toNat + i) := by
  decide +kernel
theorem witness_CursorIsForwardOnly : nineBytes.Inv ∧ ∃ t, exec (.read 64) nineBytes = .next t := ⟨by decide +kernel, _, rfl⟩
theorem witness_Read128Completes :
    fullBuffer.Inv ∧ 128 ≤ 8 * fullBuffer.bc.len.toNat - fullBuffer.bc.off.toNat := by decide +kernel
/-- 63 bits remain in the first state, 64 and 127 in the others. -/
theorem witness_Read128RunsOutOfBits :
    (withBuffer (List.replicate 16 0x5A) 65).Inv ∧
      8 * (withBuffer (List.replicate 16 0x5A) 65).bc.len.toNat - (withBuffer (List.replicate 16 0x5A) 65).bc.off.toNat
        < 64 ∧
      (withBuffer (List.replicate 16 0x5A) 64).Inv ∧
      64 ≤ 8 * (withBuffer (List.replicate 16 0x5A) 64).bc.len.toNat -
        (withBuffer (List.replicate 16 0x5A) 64).bc.off.toNat ∧
      8 * (withBuffer (List.replicate 16 0x5A) 1).bc.len.toNat - (withBuffer (List.replicate 16 0x5A) 1).bc.off.toNat
        < 128 := by decide +kernel

theorem witness_HdecCompletes : (4#24 : Arg).toNat = 4 := by decide +kernel
/-- HDEC 4, HDEC 3 and HDEC 5. -/
theorem witness_HdecCommand :
    fullState.inFlight = none ∧
      (∀ cmd : CmdWord, (presented fullState (.command cmd 0)).hostQueue = .request (.command cmd 0) :: []) ∧
      bitSlice (0x80000004#32).toNat 31 30 = 2 ∧ bitSlice (0x80000003#32).toNat 31 30 = 2 ∧
      bitSlice (0x80000005#32).toNat 31 30 = 2 := ⟨rfl, fun _ => rfl, by decide +kernel, by decide +kernel, by decide +kernel⟩
/-- S2's words. -/
theorem witness_HeaderFieldIndependence :
    (∃ t, exec (.hdec 4#24 (0x80000000#32 ++ 0#240)) State.reset = .next t) ∧
      (∃ t, exec (.hdec 4#24 (0xFFFFFFFF#32 ++ 0#240)) fullState = .next t) ∧
      bitSlice (0x80000000#32).toNat 31 31 = bitSlice (0xFFFFFFFF#32).toNat 31 31 ∧
      bitSlice (0x84000000#32).toNat 30 24 = bitSlice (0x04FFFFFF#32).toNat 30 24 ∧
      bitSlice (0x8000012A#32).toNat 23 0 = bitSlice (0x0400012A#32).toNat 23 0 :=
  ⟨⟨_, rfl⟩, ⟨_, rfl⟩, by decide +kernel, by decide +kernel, by decide +kernel⟩
theorem witness_HeaderWordsAreABijection :
    ∃ t t', exec (.hdec 4#24 (0x8400012A#32 ++ 0#240)) State.reset = .next t ∧
      exec (.hdec 4#24 (0x8400012A#32 ++ 0#240)) fullState = .next t' ∧ t.hdr = t'.hdr := ⟨_, _, rfl, rfl, rfl⟩
theorem witness_BlockTypeTable :
    7 ≤ (7#7).toNat ∧ (126#7).toNat ≤ 126 ∧ BlockType.wellFormed (.reserved 7#7) = true ∧
      BlockType.wellFormed (.reserved 126#7) = true := by decide +kernel
theorem witness_HeaderRowsPartitionTheWords : blkhdrRows[17]? = some (0x7F000000, 0x7F000000) := by decide +kernel

theorem witness_SidecCompletesByByteArithmetic : 34 ≤ (34#24 : Arg).toNat ∧ 34 ≤ (0xFFFFFF#24 : Arg).toNat := by decide +kernel
theorem witness_SidecFieldsAreSlices : 34 ≤ (34#24 : Arg).toNat ∧ ∃ t, exec (.sidec 34 v22) fullState = .next t :=
  ⟨by decide +kernel, _, rfl⟩
/-- SIDEC 34, SIDEC 33, and SIDEC 0 with a nonzero `zero` field. -/
theorem witness_SidecCommand :
    fullState.inFlight = none ∧
      (∀ cmd : CmdWord, (presented fullState (.command cmd v22)).hostQueue = .request (.command cmd v22) :: []) ∧
      bitSlice (0xC0000022#32).toNat 31 30 = 3 ∧ bitSlice (0xC0000021#32).toNat 31 30 = 3 ∧
      bitSlice (0xFF000000#32).toNat 31 30 = 3 := ⟨rfl, fun _ => rfl, by decide +kernel, by decide +kernel, by decide +kernel⟩
theorem witness_StreaminfoRoundTrip : 34 ≤ (35#24 : Arg).toNat ∧ ∃ t, exec (.sidec 35 v23) State.reset = .next t :=
  ⟨by decide +kernel, _, rfl⟩
theorem witness_ReadAfterSidecRunsOut :
    34 ≤ (34#24 : Arg).toNat ∧ 1 ≤ (1#24 : Arg).toNat ∧ (1#24 : Arg).toNat ≤ 64 ∧
      ∃ t, exec (.sidec 34 v22) State.reset = .next t := ⟨by decide +kernel, by decide +kernel, by decide +kernel, _, rfl⟩
theorem witness_CursorAgreesWithSidec :
    ∃ t a, exec (.sidec 34#24 v22) State.reset = .next t ∧ exec (.load 34#24 v22) State.reset = .next a :=
  ⟨_, _, rfl, rfl⟩

/-- LOAD 2, and LOAD 35, which is illegal. -/
theorem witness_LoadFrame :
    (∃ t, exec (.load 2 v22) fullState = .next t) ∧ (2#24 : Arg).toNat ≤ 34 ∧
      (∃ t, exec (.load 35 v22) fullState = .next t) ∧ 34 < (35#24 : Arg).toNat :=
  ⟨⟨_, rfl⟩, by decide +kernel, ⟨_, rfl⟩, by decide +kernel⟩
theorem witness_ReadFrame :
    (∃ t, exec (.read 64) nineBytes = .next t) ∧ (∃ t, exec .read128 fullBuffer = .next t) := ⟨⟨_, rfl⟩, ⟨_, rfl⟩⟩
theorem witness_HeaderFrame :
    (∃ t, exec (.hdec 3 v22) fullState = .next t) ∧
      (blkhdrRow (.btForbidden true 1)).isSome = true ∧ (∃ t, exec (.btForbidden true 1) fullState = .next t) :=
  ⟨⟨_, rfl⟩, rfl, ⟨_, rfl⟩⟩
theorem witness_StreaminfoFrame :
    (∃ t, exec (.sidec 33 v22) fullState = .next t) ∧ (33#24 : Arg).toNat < 34 ∧
      (∃ t, exec (.sidec 34 v22) fullState = .next t) ∧ (∃ t, exec (.si272 v23Record) fullState = .next t) :=
  ⟨⟨_, rfl⟩, by decide +kernel, ⟨_, rfl⟩, ⟨_, rfl⟩⟩

/-- An illegal word of each kind, and a legal word. -/
theorem witness_IllegalCommandWords :
    fullState.inFlight = none ∧
      (∀ cmd : CmdWord, (presented fullState (.command cmd 0)).hostQueue = .request (.command cmd 0) :: []) ∧
      bitSlice (0x41000008#32).toNat 29 24 ≠ 0 ∧ 34 < bitSlice (0x00000023#32).toNat 23 0 ∧
      bitSlice (0x40000000#32).toNat 23 0 = 0 ∧ 64 < bitSlice (0x40000041#32).toNat 23 0 ∧
      4 < bitSlice (0x80000005#32).toNat 23 0 ∧ bitSlice (0xC0000000#32).toNat 29 24 = 0 :=
  ⟨rfl, fun _ => rfl, by decide +kernel, by decide +kernel, by decide +kernel, by decide +kernel, by decide +kernel, by decide +kernel⟩
theorem witness_StatusPriority :
    (presented fullState (.command 0x40000005#32 0)).Inv ∧
      (presented fullState (.command 0x40000005#32 0)).inFlight = none ∧
      (presented fullState (.command 0x40000005#32 0)).hostQueue = .request (.command 0x40000005#32 0) :: [] :=
  ⟨by decide +kernel, rfl, rfl⟩
theorem witness_ErrorEntryChangesNothingElse :
    ∃ t, exec (.read 5) fullState = .next t ∧ t.status ≠ .ok := ⟨_, rfl, by decide +kernel⟩
theorem witness_ErrorsBelongToTheirUnits :
    (∃ t, exec (.read 5) fullState = .next t ∧ t.status = .outOfBits) ∧
      (∃ t, exec (.hdec 3 0) fullState = .next t ∧ t.status = .unexpectedEof) ∧
      (∃ t, exec (.sidec 33 0) fullState = .next t ∧ t.status = .insufficientData) ∧
      (∃ t, exec (.load 35 0) fullState = .next t ∧ t.status = .illegalCommand) :=
  ⟨⟨_, rfl, rfl⟩, ⟨_, rfl, rfl⟩, ⟨_, rfl, rfl⟩, ⟨_, rfl, rfl⟩⟩
/-- For each unit: its success, its own error, an instruction of another unit, and IllegalCommand. -/
theorem witness_ValidFlagsFollowTheirUnit :
    (∃ t, exec (.read 4) fullState = .next t ∧ t.status = .ok) ∧
      (∃ t, exec .read128 fullBuffer = .next t ∧ t.status = .ok) ∧
      (∃ t, exec (.read 5) fullState = .next t ∧ t.status = .outOfBits) ∧
      (∃ t, exec (.hdec 4 v22) State.reset = .next t ∧ t.status = .ok) ∧
      (blkhdrRow (.btPadding true 0)).isSome = true ∧
      (∃ t, exec (.btPadding true 0) State.reset = .next t ∧ t.status = .ok) ∧
      (∃ t, exec (.hdec 3 0) fullState = .next t ∧ t.status = .unexpectedEof) ∧
      (∃ t, exec (.sidec 34 v22) State.reset = .next t ∧ t.status = .ok) ∧
      (∃ t, exec (.si272 v23Record) State.reset = .next t ∧ t.status = .ok) ∧
      (∃ t, exec (.sidec 33 0) fullState = .next t ∧ t.status = .insufficientData) ∧
      (∃ t, exec (.load 2 v22) fullState = .next t) ∧
      (∃ t, exec (.load 35 0) fullState = .next t ∧ t.status = .illegalCommand) ∧
      (∃ t, exec (.read 0) fullState = .next t ∧ t.status = .illegalCommand) ∧
      (∃ t, exec (.hdec 5 0) fullState = .next t ∧ t.status = .illegalCommand) :=
  ⟨⟨_, rfl, rfl⟩, ⟨_, rfl, rfl⟩, ⟨_, rfl, rfl⟩, ⟨_, rfl, rfl⟩, rfl, ⟨_, rfl, rfl⟩, ⟨_, rfl, rfl⟩, ⟨_, rfl, rfl⟩,
    ⟨_, rfl, rfl⟩, ⟨_, rfl, rfl⟩, ⟨_, rfl⟩, ⟨_, rfl, rfl⟩, ⟨_, rfl, rfl⟩, ⟨_, rfl, rfl⟩⟩
theorem witness_CommandsReadOnlyTheCursor :
    fullState.bc = (withBuffer [0xDE, 0xAD] 12).bc ∧ (∃ t, exec (.read 4) fullState = .next t) ∧
      ∃ t, exec (.read 4) (withBuffer [0xDE, 0xAD] 12) = .next t := ⟨rfl, ⟨_, rfl⟩, ⟨_, rfl⟩⟩
/-- A READ with write data beside it. -/
theorem witness_EncodeOfDecode : decode (.command 0x40000008#32 v22) = .ok (.read 8) := rfl

/-- LATENCY edges after the accepting one; the last of them is the completing edge. -/
theorem witness_ClockedCommandMatchesStep :
    nineBytes.Inv ∧ nineBytes.inFlight = none ∧
      (List.replicate (Config.latency 0x40000040#32 0) (⟨false, true, 0, 0⟩ : PortIn)).length =
        Config.latency 0x40000040#32 0 ∧
      (∀ i ∈ List.replicate (Config.latency 0x40000040#32 0) (⟨false, true, 0, 0⟩ : PortIn), i.rst = false) ∧
      List.replicate (Config.latency 0x40000040#32 0) (⟨false, true, 0, 0⟩ : PortIn) =
        List.replicate (Config.latencyBeyondFirst 0x40000040#32 0) ⟨false, true, 0, 0⟩ ++ [⟨false, true, 0, 0⟩] :=
  ⟨by decide +kernel, rfl, List.length_replicate, fun _ h => by rw [List.eq_of_mem_replicate h],
    List.replicate_succ'⟩
/-- No edge after the accepting one, and all but the completing one. -/
theorem witness_ClockedCommandIsAtomic :
    fullState.inFlight = none ∧ ([] : List PortIn).length < Config.latency 0x40000040#32 0 ∧
      (∀ i ∈ ([] : List PortIn), i.rst = false) ∧
      (List.replicate (Config.latencyBeyondFirst 0x40000040#32 0) (⟨false, true, 0, 0⟩ : PortIn)).length + 1 =
        Config.latency 0x40000040#32 0 ∧
      (⟨false, true, 0, 0⟩ : PortIn).rst = false :=
  ⟨rfl, Nat.succ_pos _, by simp, by rw [List.length_replicate]; rfl, rfl⟩
theorem witness_BusyBlockIgnoresItsInputs :
    ({ fullState with inFlight := some ⟨0x40000004#32, 0, 2⟩ } : State).busy = true ∧
      (⟨false, true, 0, v22⟩ : PortIn).rst = false ∧ (⟨false, false, 1, 0⟩ : PortIn).rst = false := by decide +kernel
theorem witness_ResetEdgeAbandonsTheCommand : (⟨true, true, 0x40000008#32, 0⟩ : PortIn).rst = true := rfl
/-- An accepting edge and an edge of a busy block. -/
theorem witness_OutputsChangeOnlyAtCompletion :
    (⟨false, true, 0x40000004#32, 0⟩ : PortIn).rst = false ∧
      rspAfterEdge ⟨false, true, 0x40000004#32, 0⟩ fullState = false ∧
      (∃ t, clockEdge ⟨false, true, 0x40000004#32, 0⟩ fullState = .next t) ∧
      rspAfterEdge ⟨false, true, 0, 0⟩ { fullState with inFlight := some ⟨0x40000004#32, 0, 2⟩ } = false :=
  ⟨rfl, rfl, ⟨_, rfl⟩, rfl⟩

/-- The signature, listed and of an endless source; a mismatch; three bytes. -/
theorem witness_MagicValidation :
    (ParseSystem.start ⟨bytesOf (magicBytes ++ [1]), .eof⟩).phase = .validating ∧
      (⟨bytesOf (magicBytes ++ [1]), .eof⟩ : ByteSource).upcoming 4 = [0x66#8, 0x4C#8, 0x61#8, 0x43#8] ∧
      (⟨[], .repeats 0x66 (bytesOf [0x4C, 0x61, 0x43])⟩ : ByteSource).upcoming 4 = [0x66#8, 0x4C#8, 0x61#8, 0x43#8] ∧
      ((⟨bytesOf [0x66, 0x4C, 0x61, 0x63], .ioFault⟩ : ByteSource).upcoming 4).length = 4 ∧
      (⟨bytesOf [0x66, 0x4C, 0x61, 0x63], .ioFault⟩ : ByteSource).upcoming 4 ≠ [0x66#8, 0x4C#8, 0x61#8, 0x43#8] ∧
      ((⟨bytesOf [0x66, 0x4C, 0x61], .eof⟩ : ByteSource).upcoming 4).length < 4 :=
  ⟨rfl, by decide +kernel, by decide +kernel, by decide +kernel, by decide +kernel, by decide +kernel⟩
/-- Type 7 with its is_last bit set, and type 6 of an endless source. -/
theorem witness_UnexpectedBlockTypeIsFatal :
    let h : ParseSystem := ⟨State.reset, ⟨bytesOf [0x87, 0, 0, 2, 0xAA, 0xBB], .eof⟩, true, .running, []⟩
    let g : ParseSystem := ⟨State.reset, ⟨[], .repeats 6 (bytesOf [0, 0, 0])⟩, true, .running, []⟩
    h.phase = .running ∧ h.block.inFlight = none ∧ h.source.upcoming 4 = [0x87#8, 0#8, 0#8, 2#8] ∧
      7 ≤ (0x87#8).toNat % 128 ∧
      g.phase = .running ∧ g.block.inFlight = none ∧ g.source.upcoming 4 = [0x06#8, 0#8, 0#8, 0#8] ∧
      (0x06#8).toNat % 128 < 7 := by decide +kernel
/-- A finite source, an endless one, and the boundary codes and lengths of a chain. -/
theorem witness_ParseEndsOnFiniteSources :
    (⟨bytesOf magicBytes, .ioFault⟩ : ByteSource).endless = false ∧
      (⟨bytesOf magicBytes, .repeats 1 (bytesOf [0, 0, 0])⟩ : ByteSource).endless = true ∧
      (∃ t, (ParseSystem.start ⟨bytesOf magicBytes, .repeats 1 (bytesOf [0, 0, 0])⟩).run 1 = .next t) ∧
      (List.replicate 34 7#8).length < 2 ^ 24 ∧ 34 ≤ (List.replicate 34 7#8).length ∧
      ([] : List Byte).length < 2 ^ 24 ∧ ((6 : Nat) = 0 → 34 ≤ ([] : List Byte).length) :=
  ⟨rfl, rfl, ⟨_, rfl⟩, by decide +kernel, by decide +kernel, by decide +kernel, by decide +kernel⟩
theorem witness_HostMeetsOnlyInsufficientData :
    lookHost ((ParseSystem.start ⟨bytesOf (magicBytes ++ [0x80, 0, 0, 0]), .eof⟩).run 2) (fun t => t.phase) =
      some (.failed .insufficientData) := by decide +kernel
theorem witness_SourceReleasedOnEveryExit :
    ∃ t, (ParseSystem.start ⟨bytesOf magicBytes, .eof⟩).sourceOpen =
      !(ParseSystem.start ⟨bytesOf magicBytes, .eof⟩).ended ∧
      (ParseSystem.start ⟨bytesOf magicBytes, .eof⟩).step = .next t := ⟨_, rfl, rfl⟩
theorem witness_OneBlockStream : (payloadBytes v22).length = 34 := by decide +kernel

end Sys2Proof.Tests
end

section
/-!
PROOFS. The state after reset (R38): READ without enough bits, the empty cursor, the all-zero record, and the statement
about every reset value.
-/

namespace Sys2Proof.Machine

/-- A READ of a legal width that asks for more than the remaining bits ends in OutOfBits (R104). -/
theorem exec_read_of_remaining_lt {n : Arg} {s : State} (h1 : 1 ≤ n.toNat) (h64 : n.toNat ≤ 64)
    (h : s.bc.remaining < n.toNat) :
    exec (.read n) s = .next { s with rdV := false, status := .outOfBits } := by
  have hlegal : legalReadWidth n = true := (legalReadWidth_iff n).mpr ⟨h1, h64⟩
  calc exec (.read n) s
    _ = execRead n s := rfl
    _ = readAtCursor n.toNat s := if_pos hlegal
    _ = .next (raise .outOfBits s) := readAtCursor_short n.toNat s h
    _ = .next { s with rdV := false, status := .outOfBits } := by rw [raise_outOfBits]

@[simp] theorem State.reset_remaining : State.reset.bc.remaining = 0 := rfl

@[simp] theorem packedRecord_zeroStreaminfo : packedRecord zeroStreaminfo = 0 := by
  simp [packedRecord, zeroStreaminfo]

/-- The READ clause of R38: no bit remains after reset, and RD_V is already 0, so STATUS alone changes. -/
theorem exec_read_reset {n : Arg} (h1 : 1 ≤ n.toNat) (h64 : n.toNat ≤ 64) :
    exec (.read n) State.reset = .next { State.reset with status := .outOfBits } :=
  exec_read_of_remaining_lt h1 h64 (by rw [State.reset_remaining]; exact h1)

/-- Settles O1: the registers hold their values by definition, the record by `packedRecord_zeroStreaminfo`, and READ
runs out of bits because none remains. -/
theorem resetStateValues : Obligations.ResetStateValues :=
  ⟨rfl, rfl, rfl, rfl, rfl, rfl, rfl, rfl, rfl, packedRecord_zeroStreaminfo, rfl, rfl, rfl,
    fun _ => exec_read_reset⟩

end Sys2Proof.Machine
end

section
/-!
PROOFS. READ at the edge of the buffer (R56): the successful READ as one equation, where its offset lands, and the
statement that out of range is all or nothing while the last remaining bits are still in range.
-/

namespace Sys2Proof.Machine

/-- A READ of a legal width with enough bits left, in a state that meets the invariant: RD takes the bit field, the
cursor moves by n, RD_V is set and STATUS is OK (R104). -/
theorem exec_read_of_le_remaining {n : Arg} {s : State} (hs : s.bc.Inv) (h1 : 1 ≤ n.toNat) (h64 : n.toNat ≤ 64)
    (h : n.toNat ≤ s.bc.remaining) :
    exec (.read n) s = .next
      (((s.setCursor { s.bc with off := BitVec.ofNat 9 (s.bc.off.toNat + n.toNat) }).setRd
        (BitVec.ofNat 64 (bitField s.bytes s.bc.off.toNat n.toNat))).setStatus .ok) := by
  have hlegal : legalReadWidth n = true := (legalReadWidth_iff n).mpr ⟨h1, h64⟩
  calc exec (.read n) s
    _ = execRead n s := rfl
    _ = readAtCursor n.toNat s := if_pos hlegal
    _ = _ := readAtCursor_of_inv n.toNat s hs h

/-- Advancing by all the remaining bits, of which there is at least one, puts the offset at the buffer's end. -/
theorem BitCursor.toNat_off_add_remaining (c : BitCursor) (h : 1 ≤ c.remaining) :
    (BitVec.ofNat 9 (c.off.toNat + c.remaining)).toNat = 8 * c.len.toNat := by
  rw [c.toNat_off_add c.remaining le_rfl h]
  unfold BitCursor.remaining at h ⊢
  omega

/-- Settles O12: a READ past the remaining bits is the error entry alone, and a READ of exactly the remaining bits is
in range and moves the offset to the buffer's end. -/
theorem readOutOfRange : Obligations.ReadOutOfRange := by
  intro n s ⟨hs, _⟩ h1 h64
  refine ⟨exec_read_of_remaining_lt h1 h64, fun hn => ?_⟩
  have hrem : n.toNat = s.bc.remaining := hn
  refine ⟨_, exec_read_of_le_remaining hs h1 h64 hrem.le, rfl, ?_⟩
  rw [hrem]
  exact s.bc.toNat_off_add_remaining (hrem ▸ h1)

end Sys2Proof.Machine
end

section
/-!
PROOFS. The block type code table (R73): where the reserved codes go, that every value of the table is well formed, and
that `codeOf` and `blockTypeOf` are inverse to each other.
-/

namespace Sys2Proof.Machine

/-- The nine rows of R73's table: a code of the reserved range, or one of the eight named codes. -/
theorem typeCode_cases (c : BitVec 7) :
    (7 ≤ c.toNat ∧ c.toNat ≤ 126) ∨
      c = 0#7 ∨ c = 1#7 ∨ c = 2#7 ∨ c = 3#7 ∨ c = 4#7 ∨ c = 5#7 ∨ c = 6#7 ∨ c = 127#7 := by
  bv_omega

@[simp] theorem BlockType.wellFormed_reserved_iff (c : BitVec 7) :
    (BlockType.reserved c).wellFormed = true ↔ 7 ≤ c.toNat ∧ c.toNat ≤ 126 :=
  decide_eq_true_iff

/-- The reserved row of R73: none of the eight named codes lies in 7..126. -/
theorem blockTypeOf_of_reserved {c : BitVec 7} (h7 : 7 ≤ c.toNat) (h126 : c.toNat ≤ 126) :
    blockTypeOf c = .reserved c := by
  have ne_of_lt {k : BitVec 7} (hk : k.toNat < 7) : c ≠ k := by rintro rfl; omega
  have ne_forbidden : c ≠ 127#7 := by rintro rfl; exact absurd h126 (by decide)
  simp [blockTypeOf, ne_of_lt, ne_forbidden]

theorem blockTypeOf_wellFormed (c : BitVec 7) : (blockTypeOf c).wellFormed = true := by
  obtain ⟨h7, h126⟩ | rfl | rfl | rfl | rfl | rfl | rfl | rfl | rfl := typeCode_cases c
  · rw [blockTypeOf_of_reserved h7 h126]
    exact (BlockType.wellFormed_reserved_iff c).mpr ⟨h7, h126⟩
  all_goals rfl

theorem codeOf_blockTypeOf (c : BitVec 7) : codeOf (blockTypeOf c) = c := by
  obtain ⟨h7, h126⟩ | rfl | rfl | rfl | rfl | rfl | rfl | rfl | rfl := typeCode_cases c
  · rw [blockTypeOf_of_reserved h7 h126, codeOf]
  all_goals rfl

/-- Well-formedness is needed for `reserved` alone: outside 7..126 its code belongs to another row. -/
theorem blockTypeOf_codeOf {b : BlockType} (hb : b.wellFormed = true) : blockTypeOf (codeOf b) = b := by
  cases b
  case reserved c =>
    obtain ⟨h7, h126⟩ := (BlockType.wellFormed_reserved_iff c).mp hb
    exact blockTypeOf_of_reserved h7 h126
  all_goals rfl

/-- Settles O26: the named rows hold by evaluation, the reserved row by `blockTypeOf_of_reserved`, and the two inverse
directions go row by row. -/
theorem blockTypeTable : Obligations.BlockTypeTable :=
  ⟨rfl, rfl, rfl, rfl, rfl, rfl, rfl, rfl, fun _ => blockTypeOf_of_reserved,
    fun c => ⟨blockTypeOf_wellFormed c, codeOf_blockTypeOf c⟩, fun _ => blockTypeOf_codeOf⟩

end Sys2Proof.Machine
end

section
/-!
PROOFS. Command words at the step (R80, R189): an idle block runs the request presented to it, a nonzero `zero` field
ends it in IllegalCommand, and the words with op 0 and op 1 are LOAD and READ; the two statements about these words.
-/

namespace Sys2Proof.Machine

/-! ### Presenting and decoding a command word -/

/-- An idle block accepts the next request and runs it to completion (R20). -/
theorem step_of_idle_request {s : State} {r : Request} {rest : List HostInput} (hidle : s.inFlight = none)
    (hqueue : s.hostQueue = .request r :: rest) : step s = runRequest r (s.setHostQueue rest) := by
  simp [step, nextStep, hqueue, hidle]

/-- A request the decoder rejects changes STATUS alone (R189). -/
theorem runRequest_of_decode_error {r : Request} (h : decode r = .error .reservedBitsSet) (s : State) :
    runRequest r s = .next (s.setStatus .illegalCommand) := by
  simp [runRequest, h, raise_illegalCommand]

theorem cmdOp_eq_of_bitSlice {cmd : CmdWord} {op : BitVec 2} (h : bitSlice cmd.toNat 31 30 = op.toNat) :
    cmdOp cmd = op := by
  obtain ⟨hop, -, -⟩ := cmd_fields cmd
  exact BitVec.eq_of_toNat_eq (hop.trans h)

theorem cmdZero_eq_zero_iff (cmd : CmdWord) : cmdZero cmd = 0#6 ↔ bitSlice cmd.toNat 29 24 = 0 := by
  obtain ⟨-, hzero, -⟩ := cmd_fields cmd
  rw [← hzero, BitVec.toNat_eq, BitVec.toNat_zero]

theorem toNat_cmdArg (cmd : CmdWord) : (cmdArg cmd).toNat = bitSlice cmd.toNat 23 0 := by
  obtain ⟨-, -, harg⟩ := cmd_fields cmd
  exact harg

/-- The one rejection: a nonzero `zero` field, whatever the other fields (R81, R82). -/
theorem decode_command_of_zero_ne {cmd : CmdWord} (hzero : bitSlice cmd.toNat 29 24 ≠ 0) (wdata : WData) :
    decode (.command cmd wdata) = .error .reservedBitsSet :=
  if_pos (mt (cmdZero_eq_zero_iff cmd).mp hzero)

/-- A word with op 0 and a zero `zero` field is LOAD of its `arg` (R80). -/
theorem decode_command_load {cmd : CmdWord} (hop : bitSlice cmd.toNat 31 30 = 0)
    (hzero : bitSlice cmd.toNat 29 24 = 0) (wdata : WData) :
    decode (.command cmd wdata) = .ok (.load (cmdArg cmd) wdata) := by
  have hop : cmdOp cmd = 0#2 := cmdOp_eq_of_bitSlice hop
  have hzero : cmdZero cmd = 0#6 := (cmdZero_eq_zero_iff cmd).mpr hzero
  simp [decode, decodeCommand, hop, hzero]

/-- A word with op 1 and a zero `zero` field is READ of its `arg`, whatever the write data (R80, R84). -/
theorem decode_command_read {cmd : CmdWord} (hop : bitSlice cmd.toNat 31 30 = 1)
    (hzero : bitSlice cmd.toNat 29 24 = 0) (wdata : WData) :
    decode (.command cmd wdata) = .ok (.read (cmdArg cmd)) := by
  have hop : cmdOp cmd = 1#2 := cmdOp_eq_of_bitSlice hop
  have hzero : cmdZero cmd = 0#6 := (cmdZero_eq_zero_iff cmd).mpr hzero
  simp [decode, decodeCommand, hop, hzero]

/-! ### LOAD and READ on every operand -/

/-- LOAD of more bytes than the buffer has changes STATUS alone (R101). -/
theorem exec_load_of_illegal {len : Arg} (h : 34 < len.toNat) (wdata : WData) (s : State) :
    exec (.load len wdata) s = .next (s.setStatus .illegalCommand) :=
  if_neg (mt (legalLoadLen_iff len).mp (Nat.not_le.mpr h))

/-- LOAD with a legal length binds the cursor to wdata[0 .. len − 1] (R101). -/
theorem exec_load_of_legal {len : Arg} (h : len.toNat ≤ 34) (wdata : WData) (s : State) :
    exec (.load len wdata) s = .next
      ((s.setCursor ⟨Memory.ofBytes (portBytes wdata len.toNat), BitVec.ofNat 6 len.toNat, 0⟩).setStatus .ok) := by
  calc exec (.load len wdata) s
    _ = .next ((s.setCursor (BitCursor.wrap (loadBytes len wdata))).setStatus .ok) :=
      if_pos ((legalLoadLen_iff len).mpr h)
    _ = _ := by rw [BitCursor.wrap, loadBytes_eq, length_portBytes]

/-- READ of 0 or of more than 64 bits changes STATUS alone (R104). -/
theorem exec_read_of_illegal {n : Arg} (h : n.toNat < 1 ∨ 64 < n.toNat) (s : State) :
    exec (.read n) s = .next (s.setStatus .illegalCommand) :=
  if_neg (mt (legalReadWidth_iff n).mp (by omega))

/-! ### The statements -/

/-- Settles O10: a nonzero `zero` field is rejected by the decoder, and a word with a zero one is LOAD, which ends
according to its length. -/
theorem loadCommand : Obligations.LoadCommand := by
  intro s cmd wdata rest hidle hqueue hop
  rw [step_of_idle_request hidle hqueue]
  by_cases hzero : bitSlice cmd.toNat 29 24 = 0
  · rw [runRequest_ok (decode_command_load hop hzero wdata), ← toNat_cmdArg]
    by_cases hlen : 34 < (cmdArg cmd).toNat
    · rw [exec_load_of_illegal hlen, if_pos (.inr hlen)]
      rfl
    · rw [exec_load_of_legal (Nat.not_lt.mp hlen), if_neg (not_or.mpr ⟨not_not.mpr hzero, hlen⟩)]
      rfl
  · rw [runRequest_of_decode_error (decode_command_of_zero_ne hzero wdata), if_pos (.inl hzero)]
    rfl

/-- Settles O13: a nonzero `zero` field is rejected by the decoder, and a word with a zero one is READ, which ends
according to its width and to the remaining bits. -/
theorem readCommand : Obligations.ReadCommand := by
  intro s cmd wdata rest ⟨hcursor, _⟩ hidle hqueue hop
  rw [step_of_idle_request hidle hqueue]
  by_cases hzero : bitSlice cmd.toNat 29 24 = 0
  · rw [runRequest_ok (decode_command_read hop hzero wdata), ← toNat_cmdArg]
    by_cases hwidth : (cmdArg cmd).toNat < 1 ∨ 64 < (cmdArg cmd).toNat
    · rw [exec_read_of_illegal hwidth, if_pos (.inr hwidth)]
      rfl
    · have h1 : 1 ≤ (cmdArg cmd).toNat := by omega
      have h64 : (cmdArg cmd).toNat ≤ 64 := by omega
      rw [if_neg (not_or.mpr ⟨not_not.mpr hzero, hwidth⟩)]
      by_cases hshort : 8 * s.bc.len.toNat - s.bc.off.toNat < (cmdArg cmd).toNat
      · rw [exec_read_of_remaining_lt (s := s.setHostQueue rest) h1 h64 hshort, if_pos hshort]
        rfl
      · rw [exec_read_of_le_remaining (s := s.setHostQueue rest) hcursor h1 h64 (Nat.not_lt.mp hshort),
          if_neg hshort]
        rfl
  · rw [runRequest_of_decode_error (decode_command_of_zero_ne hzero wdata), if_pos (.inl hzero)]
    rfl

end Sys2Proof.Machine
end

section
/-!
PROOFS. HDEC as a command word (R121): the header operand as the big-endian number of its four lanes, the latched fields
as slices of that number, HDEC on every count, and the statement about the words with op 2.
-/

namespace Sys2Proof.Machine

/-! ### The header operand -/

theorem toNat_append_eq_mul_add {m n : Nat} (x : BitVec m) (y : BitVec n) :
    (x ++ y).toNat = x.toNat * 2 ^ n + y.toNat := by
  rw [BitVec.toNat_append, ← Nat.shiftLeft_add_eq_or_of_lt y.isLt, Nat.shiftLeft_eq]

@[simp] theorem bigEndian_nil : bigEndian [] = 0 := rfl

/-- The first byte is the most significant one (R12). -/
theorem bigEndian_cons (a : Byte) (b : List Byte) :
    bigEndian (a :: b) = a.toNat * 2 ^ (8 * b.length) + bigEndian b := by
  unfold bigEndian
  rw [List.length_cons, List.range_succ_eq_map, List.map_cons, List.sum_cons, List.map_map]
  simp [Function.comp_def, Nat.sub_sub, Nat.add_comm 1]

/-- HDEC's operand is `BE(wdata[0..3])`, the first lane most significant (R121). -/
theorem toNat_headerOperand (wdata : WData) : (headerOperand wdata).toNat = bigEndian (portBytes wdata 4) := by
  calc (headerOperand wdata).toNat
    _ = bigEndian [byteLane wdata 0, byteLane wdata 1, byteLane wdata 2, byteLane wdata 3] := by
      simp only [headerOperand, toNat_append_eq_mul_add, bigEndian_cons, bigEndian_nil, List.length_cons,
        List.length_nil]
      ring
    _ = bigEndian (laneBytes wdata 4) := rfl
    _ = bigEndian (portBytes wdata 4) := by rw [laneBytes_eq]

/-- The registers HDEC writes are R71's slices of `BE(wdata[0..3])` (R121). -/
theorem headerRegsOf_headerOperand (wdata : WData) :
    headerRegsOf (headerOperand wdata) = ⟨decide (bitSlice (bigEndian (portBytes wdata 4)) 31 31 = 1),
      BitVec.ofNat 7 (bitSlice (bigEndian (portBytes wdata 4)) 30 24),
      BitVec.ofNat 24 (bitSlice (bigEndian (portBytes wdata 4)) 23 0)⟩ := by
  obtain ⟨hlast, htype, hlength⟩ := hdr_fields (headerOperand wdata)
  rw [toNat_headerOperand] at hlast htype hlength
  rw [headerRegsOf, hlast, ← htype, ← hlength, BitVec.ofNat_toNat, BitVec.ofNat_toNat, BitVec.setWidth_eq,
    BitVec.setWidth_eq]

theorem latchHeader_eq (w : HeaderWord) (s : State) :
    latchHeader w s = { s with hdr := headerRegsOf w, hdrV := true, status := .ok } := rfl

/-! ### HDEC on every operand -/

/-- A word with op 2 and a zero `zero` field is HDEC of its `arg` (R80). -/
theorem decode_command_hdec {cmd : CmdWord} (hop : bitSlice cmd.toNat 31 30 = 2)
    (hzero : bitSlice cmd.toNat 29 24 = 0) (wdata : WData) :
    decode (.command cmd wdata) = .ok (.hdec (cmdArg cmd) wdata) := by
  have hop : cmdOp cmd = 2#2 := cmdOp_eq_of_bitSlice hop
  have hzero : cmdZero cmd = 0#6 := (cmdZero_eq_zero_iff cmd).mpr hzero
  simp [decode, decodeCommand, hop, hzero]

/-- HDEC of more than four header bytes changes STATUS alone (R121). -/
theorem exec_hdec_of_illegal {cnt : Arg} (h : 4 < cnt.toNat) (wdata : WData) (s : State) :
    exec (.hdec cnt wdata) s = .next (s.setStatus .illegalCommand) :=
  if_neg (mt (legalHdecCount_iff cnt).mp (Nat.not_le.mpr h))

/-- HDEC of fewer than four header bytes clears HDR_V and leaves HDR as it was (R121). -/
theorem exec_hdec_of_short {cnt : Arg} (h : cnt.toNat < 4) (wdata : WData) (s : State) :
    exec (.hdec cnt wdata) s = .next { s with hdrV := false, status := .unexpectedEof } := by
  calc exec (.hdec cnt wdata) s
    _ = if cnt.toNat < 4 then .next (raise .unexpectedEof s) else .next (latchHeader (headerOperand wdata) s) :=
      if_pos ((legalHdecCount_iff cnt).mpr h.le)
    _ = .next (raise .unexpectedEof s) := if_pos h
    _ = _ := by rw [raise_unexpectedEof]

/-- HDEC of four header bytes latches its operand's fields (R121). -/
theorem exec_hdec_of_eq_four {cnt : Arg} (h : cnt.toNat = 4) (wdata : WData) (s : State) :
    exec (.hdec cnt wdata) s = .next
      { s with hdr := headerRegsOf (headerOperand wdata), hdrV := true, status := .ok } := by
  calc exec (.hdec cnt wdata) s
    _ = if cnt.toNat < 4 then .next (raise .unexpectedEof s) else .next (latchHeader (headerOperand wdata) s) :=
      if_pos ((legalHdecCount_iff cnt).mpr h.le)
    _ = .next (latchHeader (headerOperand wdata) s) := if_neg h.not_lt
    _ = _ := by rw [latchHeader_eq]

/-! ### The statement -/

/-- Settles O23: a nonzero `zero` field is rejected by the decoder, and a word with a zero one is HDEC, which ends
according to its count: above, below or equal to four. -/
theorem hdecCommand : Obligations.HdecCommand := by
  intro s cmd wdata rest hidle hqueue hop
  rw [step_of_idle_request hidle hqueue]
  by_cases hzero : bitSlice cmd.toNat 29 24 = 0
  · rw [runRequest_ok (decode_command_hdec hop hzero wdata), ← toNat_cmdArg]
    obtain hshort | hfour | hlong := lt_trichotomy (cmdArg cmd).toNat 4
    · rw [exec_hdec_of_short hshort, if_neg (not_or.mpr ⟨not_not.mpr hzero, hshort.not_gt⟩), if_pos hshort]
      rfl
    · rw [exec_hdec_of_eq_four hfour, if_neg (not_or.mpr ⟨not_not.mpr hzero, hfour.not_gt⟩), if_neg hfour.not_lt,
        ← headerRegsOf_headerOperand]
      rfl
    · rw [exec_hdec_of_illegal hlong, if_pos (.inr hlong)]
      rfl
  · rw [runRequest_of_decode_error (decode_command_of_zero_ne hzero wdata), if_pos (.inl hzero)]
    rfl

end Sys2Proof.Machine
end

section
/-!
PROOFS. SIDEC as a command word (R137): the words with op 3, SIDEC of a short and of a whole payload, and the statement
about these words.
-/

namespace Sys2Proof.Machine

/-! ### SIDEC on every operand -/

/-- A word with op 3 and a zero `zero` field is SIDEC of its `arg` (R80). -/
theorem decode_command_sidec {cmd : CmdWord} (hop : bitSlice cmd.toNat 31 30 = 3)
    (hzero : bitSlice cmd.toNat 29 24 = 0) (wdata : WData) :
    decode (.command cmd wdata) = .ok (.sidec (cmdArg cmd) wdata) := by
  have hop : cmdOp cmd = 3#2 := cmdOp_eq_of_bitSlice hop
  have hzero : cmdZero cmd = 0#6 := (cmdZero_eq_zero_iff cmd).mpr hzero
  simp [decode, decodeCommand, hop, hzero]

/-- No length is illegal (R81), so SIDEC's length check alone decides whether the payload is read (R137). -/
theorem exec_sidec_eq (plen : Arg) (wdata : WData) (s : State) :
    exec (.sidec plen wdata) s =
      if plen.toNat < 34 then .next (raise .insufficientData s) else decodePayload (payloadBytes wdata) s :=
  if_pos (legalSidecLen_true plen)

/-- SIDEC of fewer than 34 bytes clears SI_V and leaves the SI registers and the cursor as they were (R137). -/
theorem exec_sidec_of_short {plen : Arg} (h : plen.toNat < 34) (wdata : WData) (s : State) :
    exec (.sidec plen wdata) s = .next { s with siV := false, status := .insufficientData } := by
  rw [exec_sidec_eq, if_pos h, raise_insufficientData]

/-- SIDEC of 34 bytes or more latches the record of wdata[0..33] and leaves the cursor at the end of these bytes
(R137). -/
theorem exec_sidec_of_le {plen : Arg} (h : 34 ≤ plen.toNat) (wdata : WData) (s : State) :
    exec (.sidec plen wdata) s = .next
      (((s.setCursor ⟨Memory.ofBytes (portBytes wdata 34), 34#6, 272#9⟩).setSi
        (recordOfBits (portBytes wdata 34))).setStatus .ok) := by
  rw [exec_sidec_eq, if_neg h.not_gt, payloadBytes_eq, decodePayload_eq _ (length_portBytes wdata 34)]

/-! ### The statement -/

/-- Settles O32: a nonzero `zero` field is rejected by the decoder, and a word with a zero one is SIDEC, which ends
according to its length: below 34 or not. -/
theorem sidecCommand : Obligations.SidecCommand := by
  intro s cmd wdata rest hidle hqueue hop
  rw [step_of_idle_request hidle hqueue]
  by_cases hzero : bitSlice cmd.toNat 29 24 = 0
  · rw [runRequest_ok (decode_command_sidec hop hzero wdata), ← toNat_cmdArg, if_neg (not_not.mpr hzero)]
    by_cases hshort : (cmdArg cmd).toNat < 34
    · rw [exec_sidec_of_short hshort, if_pos hshort]
      rfl
    · rw [exec_sidec_of_le (Nat.not_lt.mp hshort), if_neg hshort]
      rfl
  · rw [runRequest_of_decode_error (decode_command_of_zero_ne hzero wdata), if_pos hzero]
    rfl

end Sys2Proof.Machine
end

section
/-!
PROOFS. The host's reads and its magic check (R160): when a read finds its bytes and how it ends when it does not, the
check on each of these outcomes, and the statement about it.
-/

namespace Sys2Proof.Machine

/-! ### Reads of the byte source -/

/-- A read finds its bytes when as many are to come (R166). -/
theorem ByteSource.readExact_of_length_upcoming {src : ByteSource} {n : Nat} (h : (src.upcoming n).length = n) :
    ∃ rest, src.readExact n = .got (src.upcoming n) rest ∧ rest.ending = src.ending ∧
      ∀ k, rest.upcoming k = (src.upcoming (n + k)).drop n := by
  have hgot : ∃ found rest, src.readExact n = .got found rest := by
    obtain ⟨bytes, ending⟩ := src
    cases ending with
    | repeats first others =>
      obtain ⟨found, rest, hread, -⟩ :=
        ByteSource.readExact_endless (src := ⟨bytes, .repeats first others⟩) rfl n
      exact ⟨found, rest, hread⟩
    | eof | ioFault =>
      have hlisted : n ≤ bytes.length := h ▸ List.length_take_le' n bytes
      exact ⟨_, _, if_pos hlisted⟩
  obtain ⟨found, rest, hread⟩ := hgot
  obtain ⟨rfl, -, hending, hrest⟩ := ByteSource.readExact_got hread
  exact ⟨rest, hread, hending, hrest⟩

/-- A read with fewer bytes to come is short at the end of the source, or meets the I/O fault (log 19). -/
theorem ByteSource.readExact_of_length_upcoming_lt {src : ByteSource} {n : Nat} (h : (src.upcoming n).length < n) :
    (src.ending = .eof ∧ src.readExact n = .short src.bytes) ∨
      (src.ending = .ioFault ∧ src.readExact n = .ioFault) := by
  obtain ⟨bytes, ending⟩ := src
  have hlisted (htake : (bytes.take n).length < n) : ¬ n ≤ bytes.length :=
    fun hn => htake.ne (List.length_take_of_le hn)
  cases ending with
  | eof => exact .inl ⟨rfl, if_neg (hlisted h)⟩
  | ioFault => exact .inr ⟨rfl, if_neg (hlisted h)⟩
  | repeats first others => exact absurd (ByteSource.length_upcoming_repeats bytes first others n) h.ne

theorem ByteSource.length_upcoming_le (src : ByteSource) (n : Nat) : (src.upcoming n).length ≤ n := by
  obtain ⟨bytes, ending⟩ := src
  cases ending <;> exact List.length_take_le _ _

/-! ### The magic check -/

theorem validateMagic_of_signature {src : ByteSource} (h : src.upcoming 4 = magicSignature) :
    ∃ rest, validateMagic src = .ok rest ∧ rest.ending = src.ending ∧
      ∀ k, rest.upcoming k = (src.upcoming (4 + k)).drop 4 := by
  obtain ⟨rest, hread, hrest⟩ := ByteSource.readExact_of_length_upcoming (src := src) (n := 4) (by rw [h]; rfl)
  exact ⟨rest, by simp [validateMagic, hread, h], hrest⟩

theorem validateMagic_of_mismatch {src : ByteSource} (h4 : (src.upcoming 4).length = 4)
    (h : src.upcoming 4 ≠ magicSignature) : validateMagic src = .error (.badMagic (src.upcoming 4)) := by
  obtain ⟨rest, hread, -⟩ := ByteSource.readExact_of_length_upcoming h4
  simp [validateMagic, hread, h]

theorem validateMagic_of_short {src : ByteSource} (h : (src.upcoming 4).length < 4) :
    ∃ e, validateMagic src = .error e ∧ (src.ending = .eof → e = .unexpectedEof) := by
  obtain ⟨-, hread⟩ | ⟨hending, hread⟩ := ByteSource.readExact_of_length_upcoming_lt h
  · exact ⟨.unexpectedEof, by simp [validateMagic, hread], fun _ => rfl⟩
  · exact ⟨.ioFault, by simp [validateMagic, hread], by simp [hending]⟩

theorem ParseSystem.step_of_validateMagic_ok {h : ParseSystem} {rest : ByteSource} (hphase : h.phase = .validating)
    (hmagic : validateMagic h.source = .ok rest) : h.step = .next { h with source := rest, phase := .running } := by
  simp [ParseSystem.step, hphase, hmagic]

theorem ParseSystem.step_of_validateMagic_error {h : ParseSystem} {e : HostError} (hphase : h.phase = .validating)
    (hmagic : validateMagic h.source = .error e) : h.step = .next (h.fail e) := by
  simp [ParseSystem.step, hphase, hmagic]

theorem ParseSystem.step_of_failed {h : ParseSystem} {e : HostError} (hphase : h.phase = .failed e) :
    h.step = .next h := by
  simp [ParseSystem.step, hphase]

/-! ### The statement -/

/-- Settles O55: the next four bytes are the signature, four other bytes, or fewer than four, and the magic check
answers each of these; the block is not used in any of them. -/
theorem magicValidation : Obligations.MagicValidation := by
  intro h hphase
  obtain hlt | h4 := (h.source.length_upcoming_le 4).lt_or_eq
  · obtain ⟨e, hmagic, heof⟩ := validateMagic_of_short hlt
    refine ⟨_, ParseSystem.step_of_validateMagic_error hphase hmagic, rfl, rfl, fun hsig => ?_, fun h4 => ?_,
      fun _ hending => congrArg Phase.failed (heof hending), fun _ => ParseSystem.step_of_failed⟩
    · rw [hsig] at hlt
      exact absurd hlt (by decide)
    · exact absurd h4 hlt.ne
  · by_cases hsig : h.source.upcoming 4 = magicSignature
    · obtain ⟨rest, hmagic, hrest⟩ := validateMagic_of_signature hsig
      exact ⟨_, ParseSystem.step_of_validateMagic_ok hphase hmagic, rfl, rfl, fun _ => ⟨rfl, hrest⟩,
        fun _ hne => absurd hsig hne, fun hlt => absurd h4 hlt.ne, fun _ => ParseSystem.step_of_failed⟩
    · have hmagic := validateMagic_of_mismatch h4 hsig
      exact ⟨_, ParseSystem.step_of_validateMagic_error hphase hmagic, rfl, rfl, fun h' => absurd h' hsig,
        fun _ _ => rfl, fun hlt => absurd h4 hlt.ne, fun _ => ParseSystem.step_of_failed⟩

end Sys2Proof.Machine
end

section
/-!
PROOFS. The block types that end the parse (R165): write data built from a byte sequence, the HDEC command the host
issues for a header, what is left of a turn of the loop after it, and the statement about the type codes.
-/

namespace Sys2Proof.Machine

/-! ### Write data of a byte sequence -/

/-- The first `n` bytes of a sequence in the lowest `n` lanes of the port, the last of them lowest: the fold of
`wdataOfBytes` part of the way. -/
def packLanes (bytes : List Byte) (n : Nat) : WData :=
  (List.range n).foldl (fun acc i => (acc <<< 8) ||| (bytes.getD i 0#8).setWidth 272) 0#272

theorem wdataOfBytes_eq_packLanes (bytes : List Byte) : wdataOfBytes bytes = packLanes bytes 34 := rfl

theorem packLanes_succ (bytes : List Byte) (n : Nat) :
    packLanes bytes (n + 1) = (packLanes bytes n <<< 8) ||| (bytes.getD n 0#8).setWidth 272 := by
  simp [packLanes, List.range_succ]

/-- A byte put in below the others fills the lowest lane. -/
theorem extractLsb'_zero_pushByte (w : WData) (x : Byte) :
    ((w <<< 8) ||| x.setWidth 272).extractLsb' 0 8 = x := by
  ext j hj
  have hlane : j < 272 := by omega
  simp [hj, hlane]

/-- A byte put in below the others moves them up by one lane. -/
theorem extractLsb'_add_pushByte (w : WData) (x : Byte) {k : Nat} (hk : k + 16 ≤ 272) :
    ((w <<< 8) ||| x.setWidth 272).extractLsb' (k + 8) 8 = w.extractLsb' k 8 := by
  ext j hj
  have hlane : k + 8 + j < 272 := by omega
  have habove : ¬ k + 8 + j < 8 := by omega
  have hsub : k + 8 + j - 8 = k + j := by omega
  have hbyte : x.getLsbD (k + 8 + j) = false := BitVec.getLsbD_of_ge x _ (by omega)
  simp [hlane, habove, hsub, hbyte, BitVec.getLsbD_eq_getElem (show k + j < 272 by omega)]

theorem extractLsb'_packLanes (bytes : List Byte) {n i : Nat} (hn : n ≤ 34) (hi : i < n) :
    (packLanes bytes n).extractLsb' (8 * (n - 1 - i)) 8 = bytes.getD i 0#8 := by
  induction n with
  | zero => omega
  | succ n ih =>
    rw [packLanes_succ]
    obtain rfl | hlt := (Nat.le_of_lt_succ hi).eq_or_lt
    · rw [Nat.add_sub_cancel, Nat.sub_self]
      exact extractLsb'_zero_pushByte _ _
    · rw [show 8 * (n + 1 - 1 - i) = 8 * (n - 1 - i) + 8 by omega, extractLsb'_add_pushByte _ _ (by omega)]
      exact ih (by omega) hlt

/-- The write data of a byte sequence hold its byte `i` in lane `i`, and 00 past its end (R91). -/
theorem byteLane_wdataOfBytes (bytes : List Byte) {i : Nat} (hi : i < 34) :
    byteLane (wdataOfBytes bytes) i = bytes.getD i 0#8 :=
  extractLsb'_packLanes bytes le_rfl hi

theorem headerOperand_wdataOfBytes (h0 h1 h2 h3 : Byte) :
    headerOperand (wdataOfBytes [h0, h1, h2, h3]) = h0 ++ h1 ++ h2 ++ h3 := by
  simp [headerOperand, byteLane_wdataOfBytes]

theorem toNat_hdrType_append (h0 h1 h2 h3 : Byte) : (hdrType (h0 ++ h1 ++ h2 ++ h3)).toNat = h0.toNat % 128 := by
  simp only [hdrType, BitVec.extractLsb'_toNat, Nat.shiftRight_eq_div_pow, toNat_append_eq_mul_add]
  omega

/-! ### The header of a turn -/

theorem ParseSystem.step_of_running {h : ParseSystem} (hphase : h.phase = .running) : h.step = h.iterate := by
  simp [ParseSystem.step, hphase]

/-- The host after HDEC has latched a header (R164): the source past it, its payload not yet read. -/
def ParseSystem.withHeader (h : ParseSystem) (header : List Byte) (rest : ByteSource) : ParseSystem :=
  { h with
    block := latchHeader (headerOperand (wdataOfBytes header)) (h.block.setHostQueue [])
    source := rest }

/-- HDEC of four bytes, issued to an idle block, latches them (R121, R175). -/
theorem issueCommand_hdec {b : State} (hidle : b.inFlight = none) (wdata : WData) :
    issueCommand (commandWord 2#2 4#24) wdata b =
      .next (latchHeader (headerOperand wdata) (b.setHostQueue [])) := by
  calc issueCommand (commandWord 2#2 4#24) wdata b
    _ = runRequest (.command (commandWord 2#2 4#24) wdata) (b.setHostQueue []) := step_of_idle_request hidle rfl
    _ = exec (.hdec 4#24 wdata) (b.setHostQueue []) := runRequest_ok (Laws.RoundTrip.hdec 4#24 wdata) _
    _ = .next (latchHeader (headerOperand wdata) (b.setHostQueue [])) := exec_hdec_of_eq_four rfl wdata _

/-- A turn of the loop whose header is read: a type code of 7 or more is fatal, any other goes on to the payload
(R165). -/
theorem ParseSystem.iterate_of_readExact_got {h : ParseSystem} {header : List Byte} {rest : ByteSource}
    (hidle : h.block.inFlight = none) (hread : h.source.readExact 4 = .got header rest) :
    h.iterate =
      if 7 ≤ (h.withHeader header rest).block.hdr.type.toNat then
        .next ((h.withHeader header rest).fail (.unexpectedBlockType (h.withHeader header rest).block.hdr.type))
      else (h.withHeader header rest).readPayload := by
  simp only [ParseSystem.iterate, Config.hdrBytes, hread, issueCommand_hdec hidle, andThen_next]
  rfl

theorem toNat_type_withHeader (h : ParseSystem) (h0 h1 h2 h3 : Byte) (rest : ByteSource) :
    (h.withHeader [h0, h1, h2, h3] rest).block.hdr.type.toNat = h0.toNat % 128 := by
  rw [← toNat_hdrType_append h0 h1 h2 h3, ← headerOperand_wdataOfBytes]
  rfl

/-! ### The errors of the payload's turn -/

theorem errorOfStatus_ne_unexpectedBlockType (st : Status) (code : BitVec 7) :
    errorOfStatus st ≠ some (.unexpectedBlockType code) := by
  cases st <;> simp [errorOfStatus]

theorem ParseSystem.emit_phase_ne_failed (h : ParseSystem) (record : Option Streaminfo) (e : HostError) :
    (h.emit record).phase ≠ .failed e := by
  cases hlast : h.block.hdr.isLast <;> simp [ParseSystem.emit, hlast]

/-- The payload's errors are those of its read and of SIDEC's status (R166, R167). -/
theorem ParseSystem.readPayload_phase_ne_unexpectedBlockType {h t : ParseSystem} (ht : h.readPayload = .next t)
    (code : BitVec 7) : t.phase ≠ .failed (.unexpectedBlockType code) := by
  unfold ParseSystem.readPayload at ht
  split at ht
  · cases ht
    simp [ParseSystem.fail]
  · cases ht
    simp [ParseSystem.fail]
  · split at ht
    · obtain ⟨b, -, ht⟩ := andThen_eq_next ht
      split at ht
      · next e herror =>
        cases ht
        rintro ⟨⟩
        exact errorOfStatus_ne_unexpectedBlockType _ _ herror
      · cases ht
        exact ParseSystem.emit_phase_ne_failed _ _ _
    · cases ht
      exact ParseSystem.emit_phase_ne_failed _ _ _

/-! ### The statement -/

/-- Settles O56: HDEC latches h0 mod 128 as the type code; from 7 on the turn ends with it, below 7 the payload's turn
cannot end with this error. -/
theorem unexpectedBlockTypeIsFatal : Obligations.UnexpectedBlockTypeIsFatal := by
  intro h h0 h1 h2 h3 hphase hidle hheader
  obtain ⟨rest, hread, hending, hrest⟩ :=
    ByteSource.readExact_of_length_upcoming (src := h.source) (n := 4) (by rw [hheader]; rfl)
  rw [hheader] at hread
  have htype := toNat_type_withHeader h h0 h1 h2 h3 rest
  rw [ParseSystem.step_of_running hphase, ParseSystem.iterate_of_readExact_got hidle hread, htype]
  refine ⟨fun h7 => ?_, fun h7 t code ht => ?_⟩
  · rw [if_pos h7, ← htype, BitVec.ofNat_toNat, BitVec.setWidth_eq]
    exact ⟨_, rfl, rfl, hending, hrest, rfl⟩
  · rw [if_neg h7.not_ge] at ht
    exact ParseSystem.readPayload_phase_ne_unexpectedBlockType ht code

end Sys2Proof.Machine
end

section
/-!
PROOFS. How a command ends (R190, R193): success or the error entry alone, and the one status in its fixed order; the
two statements about them.
-/

namespace Sys2Proof.Machine

/-! ### The error entry -/

/-- READ's body either succeeds or is the error entry and nothing else (R104, R190). -/
theorem readAtCursor_status_ok_or_eq_raise {n : Nat} {s t : State} (h : readAtCursor n s = .next t) :
    t.status = .ok ∨ t = raise t.status s := by
  obtain ⟨-, rfl⟩ | ⟨-, v, -, rfl⟩ := readAtCursor_cases h
  · exact .inr rfl
  · exact .inl rfl

/-- A command either succeeds or is the error entry and nothing else (R190). READ128 is left out: it is two commands,
and the first may have succeeded (R92). -/
theorem exec_status_ok_or_eq_raise {i : Instr} {s t : State} (hi : i ≠ .read128) (h : exec i s = .next t) :
    t.status = .ok ∨ t = raise t.status s := by
  obtain ⟨_, _, -, hload⟩ | ⟨_, -, hread⟩ | ⟨_, _, -, hhdec⟩ | ⟨_, _, -, hsidec⟩ | ⟨-, _, -, rfl⟩ | ⟨_, -, rfl⟩ |
    ⟨hread128, -⟩ := exec_cases h
  · obtain ⟨-, rfl⟩ | ⟨-, rfl⟩ := hload
    · exact .inl rfl
    · exact .inr rfl
  · obtain ⟨-, -, hbody⟩ | ⟨-, rfl⟩ := hread
    · exact readAtCursor_status_ok_or_eq_raise hbody
    · exact .inr rfl
  · obtain ⟨-, rfl⟩ | ⟨-, rfl⟩ | ⟨-, rfl⟩ := hhdec
    · exact .inl rfl
    · exact .inr rfl
    · exact .inr rfl
  · obtain ⟨-, rfl⟩ | ⟨-, rfl⟩ := hsidec
    · exact .inl rfl
    · exact .inr rfl
  · exact .inl rfl
  · exact .inl rfl
  · exact absurd hread128 hi

/-- Settles O42: a command that did not succeed is the error entry `raise`, whose fields are these. -/
theorem errorEntryChangesNothingElse : Obligations.ErrorEntryChangesNothingElse := by
  intro i s t hi hexec hstatus
  exact (exec_status_ok_or_eq_raise hi hexec).resolve_left hstatus

/-! ### The order of the checks -/

/-- `op` has two bits, so a command word is LOAD, READ, HDEC or SIDEC (R80). -/
theorem bitSlice_op_cases (cmd : CmdWord) :
    bitSlice cmd.toNat 31 30 = 0 ∨ bitSlice cmd.toNat 31 30 = 1 ∨ bitSlice cmd.toNat 31 30 = 2 ∨
      bitSlice cmd.toNat 31 30 = 3 := by
  obtain ⟨hop, -, -⟩ := cmd_fields cmd
  have := (cmdOp cmd).isLt
  omega

/-- Settles O41: the four commands' own statements give the next state of a word of each `op`; their chains of checks,
read at STATUS, are the one chain of R193 at that `op`. -/
theorem statusPriority : Obligations.StatusPriority := by
  intro s cmd wdata rest hinv hidle hqueue op arg
  obtain hop | hop | hop | hop := bitSlice_op_cases cmd
  · refine ⟨_, loadCommand s cmd wdata rest hidle hqueue hop, ?_⟩
    simp [op, arg, hop, apply_ite State.status]
  · refine ⟨_, readCommand s cmd wdata rest hinv hidle hqueue hop, ?_⟩
    simp [op, arg, hop, apply_ite State.status]
  · refine ⟨_, hdecCommand s cmd wdata rest hidle hqueue hop, ?_⟩
    simp [op, arg, hop, apply_ite State.status]
  · refine ⟨_, sidecCommand s cmd wdata rest hidle hqueue hop, ?_⟩
    simp [op, arg, hop, apply_ite State.status]

end Sys2Proof.Machine
end

section
/-!
PROOFS. Decoding and encoding are inverse to each other: the round trip of every instruction, the words put together
again from their fields, the eighteen header rows and their masks, the decoder's one rejection, and the statements about
encodings.
-/

namespace Sys2Proof.Machine

/-! ### From an instruction to its words and back -/

/-- Settles O46: each constructor has its own round trip under `Laws.RoundTrip`. -/
theorem decodeOfEncode : Obligations.DecodeOfEncode
  | .load len wdata => Laws.RoundTrip.load len wdata
  | .read n => Laws.RoundTrip.read n
  | .hdec cnt wdata => Laws.RoundTrip.hdec cnt wdata
  | .sidec plen wdata => Laws.RoundTrip.sidec plen wdata
  | .btStreaminfo isLast length => Laws.RoundTrip.btStreaminfo isLast length
  | .btPadding isLast length => Laws.RoundTrip.btPadding isLast length
  | .btApplication isLast length => Laws.RoundTrip.btApplication isLast length
  | .btSeektable isLast length => Laws.RoundTrip.btSeektable isLast length
  | .btVorbiscomment isLast length => Laws.RoundTrip.btVorbiscomment isLast length
  | .btCuesheet isLast length => Laws.RoundTrip.btCuesheet isLast length
  | .btPicture isLast length => Laws.RoundTrip.btPicture isLast length
  | .btReserved7 isLast length => Laws.RoundTrip.btReserved7 isLast length
  | .btReserved8to15 low isLast length => Laws.RoundTrip.btReserved8to15 low isLast length
  | .btReserved16to31 low isLast length => Laws.RoundTrip.btReserved16to31 low isLast length
  | .btReserved32to63 low isLast length => Laws.RoundTrip.btReserved32to63 low isLast length
  | .btReserved64to95 low isLast length => Laws.RoundTrip.btReserved64to95 low isLast length
  | .btReserved96to111 low isLast length => Laws.RoundTrip.btReserved96to111 low isLast length
  | .btReserved112to119 low isLast length => Laws.RoundTrip.btReserved112to119 low isLast length
  | .btReserved120to123 low isLast length => Laws.RoundTrip.btReserved120to123 low isLast length
  | .btReserved124to125 low isLast length => Laws.RoundTrip.btReserved124to125 low isLast length
  | .btReserved126 isLast length => Laws.RoundTrip.btReserved126 isLast length
  | .btForbidden isLast length => Laws.RoundTrip.btForbidden isLast length
  | .si272 record => Laws.RoundTrip.si272 record
  | .read128 => Laws.RoundTrip.read128

/-! ### Words from their fields -/

/-- A command word whose `zero` field is 0 is the word of its `op` and its `arg` (R80). -/
theorem commandWord_of_zero {cmd : CmdWord} (hzero : bitSlice cmd.toNat 29 24 = 0) :
    commandWord (cmdOp cmd) (cmdArg cmd) = cmd := by
  obtain ⟨hop, -, harg⟩ := cmd_fields cmd
  have := cmd.isLt
  apply BitVec.eq_of_toNat_eq
  simp only [commandWord, toNat_append_eq_mul_add, hop, harg, BitVec.toNat_ofNat]
  simp only [bitSlice] at hzero ⊢
  omega

theorem toNat_hdrIsLast (w : HeaderWord) : (hdrIsLast w).toNat = bitSlice w.toNat 31 31 := by
  simp only [hdrIsLast, bitSlice, BitVec.getLsbD, Nat.toNat_testBit, Nat.sub_self, Nat.zero_add, Nat.pow_one]

/-- A header word is the word of its three fields: it has no other bit (R71, R124). -/
theorem packHdr_of_fields (w : HeaderWord) : packHdr (hdrIsLast w) (hdrType w) (hdrLength w) = w := by
  obtain ⟨-, htype, hlength⟩ := hdr_fields w
  have := w.isLt
  apply BitVec.eq_of_toNat_eq
  simp only [packHdr, toNat_append_eq_mul_add, BitVec.toNat_ofBool, toNat_hdrIsLast, htype, hlength, bitSlice]
  omega

theorem toNat_packSI (r : Streaminfo) : (packSI r).toNat = packedRecord r := by
  simp only [packSI, toNat_append_eq_mul_add, packedRecord]
  ring

/-- A payload is the word of its nine fields: they are adjacent, from bit 271 down to bit 0 (R75, R142). -/
theorem packSI_unpackSI (p : Payload) : packSI (unpackSI p) = p := by
  simp only [packSI, unpackSI]
  iterate 8 rw [BitVec.extractLsb'_append_extractLsb'_eq_extractLsb' (by rfl)]
  exact BitVec.extractLsb'_eq_self

/-! ### The eighteen header rows -/

/-- The rows of R86: ten single codes, and eight ranges of codes that share their high bits. -/
theorem typeCode_row_cases (code : BitVec 7) :
    code = 0#7 ∨ code = 1#7 ∨ code = 2#7 ∨ code = 3#7 ∨ code = 4#7 ∨ code = 5#7 ∨ code = 6#7 ∨ code = 7#7 ∨
      code.toNat / 2 ^ 3 = 1 ∨ code.toNat / 2 ^ 4 = 1 ∨ code.toNat / 2 ^ 5 = 1 ∨ code.toNat / 2 ^ 5 = 2 ∨
      code.toNat / 2 ^ 4 = 6 ∨ code.toNat / 2 ^ 3 = 14 ∨ code.toNat / 2 ^ 2 = 30 ∨ code.toNat / 2 ^ 1 = 62 ∨
      code = 126#7 ∨ code = 127#7 := by
  have := code.isLt
  simp only [BitVec.toNat_eq, BitVec.toNat_ofNat]
  omega

/-- A word is its high bits with its low bits after them. -/
theorem append_extractLsb'_zero {hi lo k : Nat} {x : BitVec (hi + lo)} (h : x.toNat / 2 ^ lo = k) :
    BitVec.ofNat hi k ++ x.extractLsb' 0 lo = x := by
  have hk : k < 2 ^ hi := by
    rw [← h, Nat.div_lt_iff_lt_mul (by positivity), ← pow_add]
    exact x.isLt
  apply BitVec.eq_of_toNat_eq
  rw [toNat_append_eq_mul_add, BitVec.toNat_ofNat, Nat.mod_eq_of_lt hk, BitVec.extractLsb'_toNat, Nat.shiftRight_zero,
    ← h, Nat.div_add_mod']

/-- Every header value has a row whose word packs it (R74, R86). -/
theorem exists_encode_eq_packHdr (isLast : Bool) (code : BitVec 7) (length : BitVec 24) :
    ∃ i, encode i = .header (packHdr isLast code length) := by
  have word {c : BitVec 7} (h : c = code) :
      Request.header (packHdr isLast c length) = .header (packHdr isLast code length) := by rw [h]
  obtain rfl | rfl | rfl | rfl | rfl | rfl | rfl | rfl | h | h | h | h | h | h | h | h | rfl | rfl :=
    typeCode_row_cases code
  · exact ⟨.btStreaminfo isLast length, rfl⟩
  · exact ⟨.btPadding isLast length, rfl⟩
  · exact ⟨.btApplication isLast length, rfl⟩
  · exact ⟨.btSeektable isLast length, rfl⟩
  · exact ⟨.btVorbiscomment isLast length, rfl⟩
  · exact ⟨.btCuesheet isLast length, rfl⟩
  · exact ⟨.btPicture isLast length, rfl⟩
  · exact ⟨.btReserved7 isLast length, rfl⟩
  · exact ⟨.btReserved8to15 (code.extractLsb' 0 3) isLast length, word (append_extractLsb'_zero (hi := 4) h)⟩
  · exact ⟨.btReserved16to31 (code.extractLsb' 0 4) isLast length, word (append_extractLsb'_zero (hi := 3) h)⟩
  · exact ⟨.btReserved32to63 (code.extractLsb' 0 5) isLast length, word (append_extractLsb'_zero (hi := 2) h)⟩
  · exact ⟨.btReserved64to95 (code.extractLsb' 0 5) isLast length, word (append_extractLsb'_zero (hi := 2) h)⟩
  · exact ⟨.btReserved96to111 (code.extractLsb' 0 4) isLast length, word (append_extractLsb'_zero (hi := 3) h)⟩
  · exact ⟨.btReserved112to119 (code.extractLsb' 0 3) isLast length, word (append_extractLsb'_zero (hi := 4) h)⟩
  · exact ⟨.btReserved120to123 (code.extractLsb' 0 2) isLast length, word (append_extractLsb'_zero (hi := 5) h)⟩
  · exact ⟨.btReserved124to125 (code.extractLsb' 0 1) isLast length, word (append_extractLsb'_zero (hi := 6) h)⟩
  · exact ⟨.btReserved126 isLast length, rfl⟩
  · exact ⟨.btForbidden isLast length, rfl⟩

/-- The row that packs a header word is the row the decoder reads from it. -/
theorem encode_decodeHeader (w : HeaderWord) : encode (decodeHeader w) = .header w := by
  obtain ⟨i, hi⟩ := exists_encode_eq_packHdr (hdrIsLast w) (hdrType w) (hdrLength w)
  rw [packHdr_of_fields] at hi
  have hround : decode (encode i) = .ok i := decodeOfEncode i
  rw [hi] at hround
  obtain rfl : decodeHeader w = i := Except.ok.inj hround
  exact hi

/-- Which row it is, the type code alone says. -/
theorem blkhdrRow_headerRow (code : BitVec 7) (isLast : Bool) (length : BitVec 24) :
    blkhdrRow (headerRow code isLast length) = blkhdrRow (headerRow code false 0#24) := by
  simp only [headerRow, apply_ite blkhdrRow]
  rfl

/-- The table of R86 on the type codes: 128 codes, eighteen rows. -/
theorem typeCode_land_mask_iff : ∀ (code : BitVec 7) (k : Fin 18),
    code.toNat &&& blkhdrRows[k].1 / 2 ^ 24 = blkhdrRows[k].2 / 2 ^ 24 ↔
      blkhdrRow (headerRow code false 0#24) = some k.1 := by
  decide +kernel

/-- The masks and matches of R86 have no bit outside the type code. -/
theorem blkhdrRows_bits : ∀ k : Fin 18,
    blkhdrRows[k].1 = 2 ^ 24 * (blkhdrRows[k].1 / 2 ^ 24) ∧ blkhdrRows[k].1 / 2 ^ 24 < 2 ^ 7 ∧
      blkhdrRows[k].2 = 2 ^ 24 * (blkhdrRows[k].2 / 2 ^ 24) := by
  decide +kernel

/-- A mask with no bit below `lo` sees the bits from `lo` on alone. -/
theorem land_two_pow_mul (x m lo : Nat) : x &&& 2 ^ lo * m = 2 ^ lo * (x / 2 ^ lo &&& m) := by
  conv_lhs => rw [← Nat.div_add_mod (x &&& 2 ^ lo * m) (2 ^ lo)]
  rw [Nat.and_div_two_pow, Nat.and_mod_two_pow]
  simp

/-- A mask below `2 ^ n` sees the `n` low bits alone. -/
theorem mod_two_pow_land {m n : Nat} (hm : m < 2 ^ n) (x : Nat) : x % 2 ^ n &&& m = x &&& m := by
  have hmod := Nat.and_mod_two_pow (a := x) (b := m) (n := n)
  rw [Nat.mod_eq_of_lt hm, Nat.mod_eq_of_lt (Nat.and_lt_two_pow x hm)] at hmod
  exact hmod.symm

/-- Settles O28: masking a header word is masking its type code, and there the table is checked code by code. -/
theorem headerRowsPartitionTheWords : Obligations.HeaderRowsPartitionTheWords := by
  intro w k mask pattern hrow
  obtain ⟨hk, hrow⟩ := List.getElem?_eq_some_iff.mp hrow
  obtain ⟨hmask, hm, hpattern⟩ := blkhdrRows_bits ⟨k, hk⟩
  have hcode := typeCode_land_mask_iff (hdrType w) ⟨k, hk⟩
  obtain ⟨-, htype, -⟩ := hdr_fields w
  simp only [Fin.getElem_fin, hrow] at hmask hm hpattern hcode
  have hslice : bitSlice w.toNat 30 24 &&& mask / 2 ^ 24 = w.toNat / 2 ^ 24 &&& mask / 2 ^ 24 :=
    mod_two_pow_land hm _
  have hland := land_two_pow_mul w.toNat (mask / 2 ^ 24) 24
  rw [← hmask] at hland
  rw [decodeHeader, blkhdrRow_headerRow, ← hcode, htype, hslice]
  omega

/-! ### From a request to its instruction and back -/

/-- A command word with a zero `zero` field is the encoding of its instruction, but for READ's write data. -/
theorem encode_of_decode_command {cmd : CmdWord} {wdata : WData} {i : Instr}
    (h : decode (.command cmd wdata) = .ok i) :
    encode i = .command cmd (if bitSlice cmd.toNat 31 30 = 1 then 0#272 else wdata) := by
  by_cases hzero : bitSlice cmd.toNat 29 24 = 0
  · have hword := commandWord_of_zero hzero
    obtain hop | hop | hop | hop := bitSlice_op_cases cmd
    · rw [decode_command_load hop hzero] at h
      cases h
      rw [cmdOp_eq_of_bitSlice (op := 0#2) hop] at hword
      simp [encode, hword, hop]
    · rw [decode_command_read hop hzero] at h
      cases h
      rw [cmdOp_eq_of_bitSlice (op := 1#2) hop] at hword
      simp [encode, hword, hop]
    · rw [decode_command_hdec hop hzero] at h
      cases h
      rw [cmdOp_eq_of_bitSlice (op := 2#2) hop] at hword
      simp [encode, hword, hop]
    · rw [decode_command_sidec hop hzero] at h
      cases h
      rw [cmdOp_eq_of_bitSlice (op := 3#2) hop] at hword
      simp [encode, hword, hop]
  · rw [decode_command_of_zero_ne hzero] at h
    cases h

/-- Settles O47, format by format; a command word is the encoding of its instruction, with READ's write data dropped. -/
theorem encodeOfDecode : Obligations.EncodeOfDecode := by
  intro r i h
  cases r with
  | command cmd wdata =>
    rw [encode_of_decode_command h]
    by_cases hop : bitSlice cmd.toNat 31 30 = 1
    · exact .inr ⟨cmd, wdata, rfl, hop, by rw [if_pos hop]⟩
    · exact .inl (by rw [if_neg hop])
  | header w =>
    cases h
    exact .inl (encode_decodeHeader w)
  | payload p =>
    cases h
    exact .inl (congrArg Request.payload (packSI_unpackSI p))
  | read128 =>
    cases h
    exact .inl rfl

/-- Settles O48: only `decodeCommand` rejects, and only on the `zero` field. -/
theorem decodeRejectsReservedBits : Obligations.DecodeRejectsReservedBits := by
  intro r
  constructor
  · intro h
    cases r with
    | command cmd wdata =>
      refine ⟨cmd, wdata, rfl, fun hzero => ?_⟩
      have hzero : cmdZero cmd = 0#6 := (cmdZero_eq_zero_iff cmd).mpr hzero
      simp only [decode, decodeCommand, hzero, ne_eq, not_true_eq_false, if_false] at h
      split_ifs at h
    | header w => cases h
    | payload p => cases h
    | read128 => cases h
  · rintro ⟨cmd, wdata, rfl, hzero⟩
    exact decode_command_of_zero_ne hzero wdata

/-- Settles O49: the decoder evaluates on each of the nine words. -/
theorem writtenWordsDecode : Obligations.WrittenWordsDecode :=
  ⟨rfl, rfl, rfl, rfl, rfl, rfl, rfl, rfl, rfl⟩

end Sys2Proof.Machine
end

section
/-!
PROOFS. LOAD, READ and READ128 on the cursor (R101, R104, R107, R108, R92): bit fields as slices and as bytes, the state
after a READ, sequences of READs, and the statements about the three commands.
-/

namespace Sys2Proof

/-! ### Bit fields -/

/-- A bit field is a function of its own bits alone. -/
theorem bitField_congr {b c : List Byte} {k l n : Nat}
    (h : ∀ i, i < n → streamBitOf b (k + i) = streamBitOf c (l + i)) : bitField b k n = bitField c l n := by
  induction n with
  | zero => rw [bitField_zero, bitField_zero]
  | succ n ih =>
    rw [bitField_succ, bitField_succ, ih fun i hi => h i (Nat.lt_succ_of_lt hi), h n n.lt_succ_self]

/-- The bits from a byte boundary on are the high bits of that byte. -/
theorem bitField_byte_high (b : List Byte) (j : Nat) {n : Nat} (hn : n ≤ 8) :
    bitField b (8 * j) n = (b.getD j 0#8).toNat / 2 ^ (8 - n) := by
  induction n with
  | zero =>
    rw [bitField_zero, Nat.div_eq_of_lt (b.getD j 0#8).isLt]
  | succ n ih =>
    have hbyte : (8 * j + n) / 8 = j := by omega
    have hbit : (8 * j + n) % 8 = n := by omega
    rw [bitField_succ, ih (by omega), streamBitOf, hbyte, hbit, show 8 - (n + 1) = 7 - n by omega,
      show 8 - n = 7 - n + 1 by omega, pow_succ, ← Nat.div_div_eq_div_mul]
    exact Nat.div_add_mod _ 2

theorem bitField_byte (b : List Byte) (j : Nat) : bitField b (8 * j) 8 = (b.getD j 0#8).toNat := by
  rw [bitField_byte_high b j le_rfl, Nat.sub_self, pow_zero, Nat.div_one]

/-- The field of `n` bits that lies `k` bits into a field of `k + n + r` bits, by division. -/
theorem bitField_eq_div_mod (b : List Byte) (j k n r : Nat) :
    bitField b (j + k) n = bitField b j (k + n + r) / 2 ^ r % 2 ^ n := by
  have hlow := bitField_lt b (j + (k + n)) r
  have hmid := bitField_lt b (j + k) n
  rw [bitField_add, bitField_add, Nat.add_comm (_ * 2 ^ r), Nat.add_mul_div_right _ _ (by positivity),
    Nat.div_eq_of_lt hlow, Nat.zero_add, Nat.mul_add_mod', Nat.mod_eq_of_lt hmid]

/-- The bits of whole bytes are the big-endian value of these bytes (R108). -/
theorem bitField_bytes (b : List Byte) (j m : Nat) (h : j + m ≤ b.length) :
    bitField b (8 * j) (8 * m) = bigEndian ((b.drop j).take m) := by
  induction m generalizing j with
  | zero => simp [bitField_zero]
  | succ m ih =>
    have hj : j < b.length := by omega
    have hlength : ((b.drop (j + 1)).take m).length = m := List.length_take_of_le (by rw [List.length_drop]; omega)
    rw [List.drop_eq_getElem_cons hj, List.take_succ_cons, Machine.bigEndian_cons, ← ih (j + 1) (by omega), hlength,
      Nat.mul_succ, Nat.add_comm, bitField_add, bitField_byte, List.getD_eq_getElem b 0#8 hj, Nat.mul_succ]

namespace Machine

theorem toNat_ofNat_bitField {n w : Nat} (h : n ≤ w) (b : List Byte) (k : Nat) :
    (BitVec.ofNat w (bitField b k n)).toNat = bitField b k n :=
  Nat.mod_eq_of_lt ((bitField_lt b k n).trans_le (Nat.pow_le_pow_right (by decide) h))

/-! ### LOAD -/

theorem getElem?_portBytes (wdata : WData) (n i : Nat) :
    (portBytes wdata n)[i]? = if i < n then some (BitVec.ofNat 8 (portByte wdata i)) else none := by
  by_cases hi : i < n <;> simp [portBytes, hi]

/-- Settles O9: the next state is LOAD's equation, and a read of the new buffer finds the lane of its index. -/
theorem loadCompletes : Obligations.LoadCompletes := by
  intro len wdata s hlen
  exact ⟨_, exec_load_of_legal hlen wdata s, Memory.bytes_ofBytes _,
    fun i => (Memory.readByte_ofBytes _ i).trans (getElem?_portBytes wdata len.toNat i),
    Nat.mod_eq_of_lt (by omega), rfl, rfl, rfl, rfl, rfl, rfl, rfl, rfl, rfl, rfl, rfl⟩

/-! ### READ -/

/-- The state after a READ that gives the value `v` of `n` bits (R104). -/
abbrev State.afterRead (s : State) (n v : Nat) : State :=
  ((s.setCursor { s.bc with off := BitVec.ofNat 9 (s.bc.off.toNat + n) }).setRd (BitVec.ofNat 64 v)).setStatus .ok

theorem State.toNat_off_afterRead {s : State} {n : Nat} (h : n ≤ s.bc.remaining) (h1 : 1 ≤ n) (v : Nat) :
    (s.afterRead n v).bc.off.toNat = s.bc.off.toNat + n :=
  s.bc.toNat_off_add n h h1

theorem State.off_le_afterRead {s : State} {n : Nat} (h : n ≤ s.bc.remaining) (h1 : 1 ≤ n) (v : Nat) :
    s.bc.off.toNat ≤ (s.afterRead n v).bc.off.toNat :=
  (Nat.le_add_right _ n).trans_eq (State.toNat_off_afterRead h h1 v).symm

theorem State.remaining_afterRead {s : State} {n : Nat} (h : n ≤ s.bc.remaining) (h1 : 1 ≤ n) (v : Nat) :
    (s.afterRead n v).bc.remaining = s.bc.remaining - n := by
  rw [BitCursor.remaining, State.toNat_off_afterRead h h1, Nat.sub_add_eq]
  rfl

theorem State.afterRead_bc_inv {s : State} (hs : s.bc.Inv) {n : Nat} (h : n ≤ s.bc.remaining) (v : Nat) :
    (s.afterRead n v).bc.Inv :=
  s.bc.advance_inv n hs h

/-- Two advances are one. -/
theorem State.afterRead_afterRead_bc {s : State} {m : Nat} (h : m ≤ s.bc.remaining) (h1 : 1 ≤ m) (n v w : Nat) :
    ((s.afterRead m v).afterRead n w).bc = { s.bc with off := BitVec.ofNat 9 (s.bc.off.toNat + (m + n)) } := by
  have hoff := State.toNat_off_afterRead h h1 v
  rw [State.setStatus_bc, State.setRd_bc, State.setCursor_bc, hoff, Nat.add_assoc]
  rfl

/-- Settles O11: the next state is READ's equation; its value fits RD and its offset does not wrap. -/
theorem readCompletes : Obligations.ReadCompletes := by
  intro n s ⟨hs, _⟩ h1 h64 h
  have hrd := toNat_ofNat_bitField h64 s.bytes s.bc.off.toNat
  exact ⟨_, exec_read_of_le_remaining hs h1 h64 h, hrd, hrd.trans_lt (bitField_lt _ _ _), rfl,
    State.toNat_off_afterRead h h1 _, rfl, fun _ => rfl, rfl, rfl, rfl, rfl, rfl, rfl, rfl, rfl, rfl⟩

/-- Settles O14: the bits of the buffer cannot be read past the absent byte, whatever BC.len says. -/
theorem readStopsOnAbsentByte : Obligations.ReadStopsOnAbsentByte := by
  intro n s h1 h64 h k hk hkn habsent
  have hlegal : legalReadWidth n = true := (legalReadWidth_iff n).mpr ⟨h1, h64⟩
  have hlt : ¬ s.bc.remaining < n.toNat := Nat.not_lt.mpr h
  have hbits := Memory.readBits_absent s.bc.buf s.bc.off.toNat n.toNat k hk hkn habsent
  calc exec (.read n) s
    _ = readAtCursor n.toNat s := if_pos hlegal
    _ = .fault .bufferByteAbsent := by simp [readAtCursor, BitCursor.read, hlt, hbits]

/-- Settles O15: the second READ starts where the first ended, so the two fields are adjacent. -/
theorem readConcatenation : Obligations.ReadConcatenation := by
  intro a b ab s ⟨hs, _⟩ ha hb hab h64 h
  have h : ab.toNat ≤ s.bc.remaining := h
  have hle : a.toNat ≤ s.bc.remaining := by omega
  have hrem (v : Nat) : b.toNat ≤ (s.afterRead a.toNat v).bc.remaining := by
    rw [State.remaining_afterRead hle ha]
    omega
  refine ⟨_, _, _, exec_read_of_le_remaining hs ha (by omega) hle,
    exec_read_of_le_remaining (State.afterRead_bc_inv hs hle _) hb (by omega) (hrem _),
    exec_read_of_le_remaining hs (by omega) h64 h, ?_, ?_⟩
  · simp only [State.setStatus_rd, State.setRd_rd]
    rw [toNat_ofNat_bitField (by omega), toNat_ofNat_bitField (by omega), toNat_ofNat_bitField h64,
      State.toNat_off_afterRead hle ha, hab, bitField_add]
    rfl
  · rw [State.afterRead_afterRead_bc hle ha, ← hab]
    rfl

/-- Settles O17: the bits READ returns are those of whole bytes. -/
theorem alignedReadIsBigEndian : Obligations.AlignedReadIsBigEndian := by
  intro n s j m hinv hoff hn h1 h8 hlen
  obtain ⟨t, hexec, hrd, -⟩ := readCompletes n s hinv (by omega) (by omega) (by omega)
  obtain ⟨⟨-, -, hlength, -⟩, -⟩ := hinv
  have hbytes : j + m ≤ s.bytes.length := by
    rw [State.bytes, Memory.bytes, List.length_map, hlength]
    exact hlen
  exact ⟨t, hexec, by rw [hrd, hoff, hn, bitField_bytes _ _ _ hbytes]⟩

/-- Settles O18: READ returns a bit field, and a bit field is a function of its own bits. -/
theorem readDependsOnItsBitsAlone : Obligations.ReadDependsOnItsBitsAlone := by
  intro n s u hs hu h1 h64 hns hnu hbits
  obtain ⟨t, ht, htrd, -⟩ := readCompletes n s hs h1 h64 hns
  obtain ⟨v, hv, hvrd, -⟩ := readCompletes n u hu h1 h64 hnu
  exact ⟨t, v, ht, hv, BitVec.eq_of_toNat_eq (by rw [htrd, hvrd, bitField_congr hbits])⟩

/-! ### Sequences of READs -/

/-- The widths with the bit fields they cover, one after another from stream bit `k` on. -/
def fieldValues (b : List Byte) : Nat → List Arg → List (Nat × Nat)
  | _, [] => []
  | k, n :: ns => (n.toNat, bitField b k n.toNat) :: fieldValues b (k + n.toNat) ns

theorem fieldValues_widths (b : List Byte) (k : Nat) (ns : List Arg) :
    (fieldValues b k ns).map Prod.fst = ns.map BitVec.toNat := by
  induction ns generalizing k with
  | nil => rfl
  | cons n ns ih => rw [fieldValues, List.map_cons, List.map_cons, ih]

theorem fieldValues_lt (b : List Byte) (k : Nat) (ns : List Arg) : ∀ v ∈ fieldValues b k ns, v.2 < 2 ^ v.1 := by
  induction ns generalizing k with
  | nil => simp [fieldValues]
  | cons n ns ih =>
    rw [fieldValues, List.forall_mem_cons]
    exact ⟨bitField_lt b k n.toNat, ih _⟩

/-- Numerals written after `j` bits from `k` on, which they continue, spell the longer field. -/
theorem spelled_fieldValues_from (b : List Byte) (k j : Nat) (ns : List Arg) :
    (fieldValues b (k + j) ns).foldl (fun acc nv => acc * 2 ^ nv.1 + nv.2) (bitField b k j) =
      bitField b k (j + (ns.map BitVec.toNat).sum) := by
  induction ns generalizing j with
  | nil => rfl
  | cons n ns ih =>
    rw [fieldValues, List.foldl_cons, ← bitField_add, Nat.add_assoc, ih, List.map_cons, List.sum_cons, Nat.add_assoc]

theorem spelled_fieldValues (b : List Byte) (k : Nat) (ns : List Arg) :
    spelled (fieldValues b k ns) = bitField b k (ns.map BitVec.toNat).sum := by
  have h := spelled_fieldValues_from b k 0 ns
  rwa [Nat.zero_add, bitField_zero] at h

/-- READs of legal widths within the remaining bits all succeed: they return the fields they cover and leave the cursor
past the last of them (R107). -/
theorem readValues_of_inv {ns : List Arg} {s : State} (hs : s.bc.Inv) (hns : ∀ n ∈ ns, 1 ≤ n.toNat ∧ n.toNat ≤ 64)
    (hsum : (ns.map BitVec.toNat).sum ≤ s.bc.remaining) :
    ∃ t, readValues ns s = some (fieldValues s.bytes s.bc.off.toNat ns, t) ∧
      t.bc = { s.bc with off := BitVec.ofNat 9 (s.bc.off.toNat + (ns.map BitVec.toNat).sum) } := by
  induction ns generalizing s with
  | nil =>
    refine ⟨s, rfl, ?_⟩
    simp
  | cons n ns ih =>
    obtain ⟨⟨h1, h64⟩, hns⟩ := List.forall_mem_cons.mp hns
    rw [List.map_cons, List.sum_cons] at hsum ⊢
    have hle : n.toNat ≤ s.bc.remaining := by omega
    let u := s.afterRead n.toNat (bitField s.bytes s.bc.off.toNat n.toNat)
    have hoff : u.bc.off.toNat = s.bc.off.toNat + n.toNat := State.toNat_off_afterRead hle h1 _
    have hrem : u.bc.remaining = s.bc.remaining - n.toNat := State.remaining_afterRead hle h1 _
    obtain ⟨t, hread, hcursor⟩ := ih (s := u) (State.afterRead_bc_inv hs hle _) hns (by omega)
    have hrd : u.rd.toNat = bitField s.bytes s.bc.off.toNat n.toNat := toNat_ofNat_bitField h64 _ _
    refine ⟨t, ?_, ?_⟩
    · have hexec : exec (.read n) s = .next u := exec_read_of_le_remaining hs h1 h64 hle
      have hok : u.status = .ok := rfl
      simp only [readValues, hexec, hok, if_true, hread, hrd, fieldValues, hoff]
      rfl
    · rw [hcursor, hoff, Nat.add_assoc]
      rfl

/-- Settles O16: the values of the sequence are the fields one after another. -/
theorem readSequenceSpellsTheBuffer : Obligations.ReadSequenceSpellsTheBuffer := by
  intro ns s ⟨hs, _⟩ hns hsum
  obtain ⟨t, hread, hcursor⟩ := readValues_of_inv hs hns hsum
  exact ⟨_, t, hread, fieldValues_widths _ _ _, fieldValues_lt _ _ _, spelled_fieldValues _ _ _, hcursor⟩

/-! ### READ128 -/

/-- READ128 without 64 bits left: its first READ fails and its second is not issued (R92). -/
theorem exec_read128_of_lt_64 {s : State} (h : s.bc.remaining < 64) :
    exec .read128 s = .next ((raise .outOfBits s).setHostRead128 none) := by
  have hfirst := readAtCursor_short 64 s h
  simp [exec, execRead128, hfirst]

/-- READ128 whose first READ succeeds issues the second, and has a value when that one succeeds too (R92). -/
theorem exec_read128_of_first_ok {s u v : State} (hfirst : readAtCursor 64 s = .next u) (hok : u.status = .ok)
    (hsecond : readAtCursor 64 u = .next v) :
    exec .read128 s = .next (v.setHostRead128 (if v.status = .ok then some (u.rd ++ v.rd) else none)) := by
  simp [exec, execRead128, hfirst, hok, hsecond]

/-- READ128 with 64 bits left but not 128: its second READ fails (R92). -/
theorem exec_read128_of_lt_128 {s : State} (hs : s.bc.Inv) (h64 : 64 ≤ s.bc.remaining) (h : s.bc.remaining < 128) :
    exec .read128 s = .next
      ((raise .outOfBits (s.afterRead 64 (bitField s.bytes s.bc.off.toNat 64))).setHostRead128 none) := by
  have hfirst := readAtCursor_of_inv 64 s hs h64
  have hrem := State.remaining_afterRead h64 (by decide) (bitField s.bytes s.bc.off.toNat 64)
  have hsecond := readAtCursor_short 64 (s.afterRead 64 (bitField s.bytes s.bc.off.toNat 64)) (by rw [hrem]; omega)
  rw [exec_read128_of_first_ok hfirst rfl hsecond, raise_status, if_neg (by decide)]

/-- READ128 with 128 bits left: both READs succeed, the first half the more significant (R92). -/
theorem exec_read128_of_le {s : State} (hs : s.bc.Inv) (h : 128 ≤ s.bc.remaining) :
    exec .read128 s = .next
      (((s.afterRead 64 (bitField s.bytes s.bc.off.toNat 64)).afterRead 64
        (bitField s.bytes (s.bc.off.toNat + 64) 64)).setHostRead128
          (some (BitVec.ofNat 64 (bitField s.bytes s.bc.off.toNat 64) ++
            BitVec.ofNat 64 (bitField s.bytes (s.bc.off.toNat + 64) 64)))) := by
  have h64 : 64 ≤ s.bc.remaining := by omega
  have hfirst := readAtCursor_of_inv 64 s hs h64
  have hrem := State.remaining_afterRead h64 (by decide) (bitField s.bytes s.bc.off.toNat 64)
  have hsecond := readAtCursor_of_inv 64 (s.afterRead 64 (bitField s.bytes s.bc.off.toNat 64))
    (State.afterRead_bc_inv hs h64 _) (by rw [hrem]; omega)
  rw [exec_read128_of_first_ok hfirst rfl hsecond, State.setStatus_status, if_pos rfl,
    ← State.toNat_off_afterRead h64 (by decide) (bitField s.bytes s.bc.off.toNat 64)]
  rfl

/-- Settles O20: both READs succeed, and two adjacent fields of 64 bits are one of 128. -/
theorem read128Completes : Obligations.Read128Completes := by
  intro s ⟨hs, _⟩ h
  have hvalue : (BitVec.ofNat 64 (bitField s.bytes s.bc.off.toNat 64) ++
      BitVec.ofNat 64 (bitField s.bytes (s.bc.off.toNat + 64) 64)).toNat =
        bitField s.bytes s.bc.off.toNat 64 * 2 ^ 64 + bitField s.bytes (s.bc.off.toNat + 64) 64 := by
    rw [toNat_append_eq_mul_add, toNat_ofNat_bitField le_rfl, toNat_ofNat_bitField le_rfl]
  have h64 : 64 ≤ s.bc.remaining := le_trans (by decide) h
  refine ⟨_, _, exec_read128_of_le hs h, rfl, hvalue, hvalue.trans (bitField_add _ _ 64 64).symm,
    toNat_ofNat_bitField le_rfl _ _, rfl, ?_, rfl, rfl, rfl, rfl, rfl, rfl, rfl⟩
  rw [State.setHostRead128_bc, State.afterRead_afterRead_bc h64 (by decide)]

/-- Settles O21: the equations of READ128 short of 64 bits and short of 128. -/
theorem read128RunsOutOfBits : Obligations.Read128RunsOutOfBits := by
  intro s ⟨hs, _⟩
  refine ⟨fun h => ?_, fun h64 h => ?_⟩
  · rw [exec_read128_of_lt_64 h, raise_outOfBits]
    rfl
  · rw [exec_read128_of_lt_128 hs h64 h, raise_outOfBits]
    rfl

end Machine
end Sys2Proof
end

section
/-!
PROOFS. What an instruction can do, as one inductive relation, and what follows from it by cases: the frames of R32, the
errors and the flags of R31, R185 and R189, and that the cursor only moves forward (R109).
-/

namespace Sys2Proof.Machine

/-! ### The effects of an instruction -/

/-- The next states an instruction can answer at `s`, one constructor for each way it can end. -/
inductive Effect (s : State) : Instr → State → Prop
  | illegal {i : Instr} (hi : i.wellFormed = false) : Effect s i (raise .illegalCommand s)
  | load {len : Arg} {wdata : WData} (hlen : len.toNat ≤ 34) :
    Effect s (.load len wdata) ((s.setCursor (BitCursor.wrap (loadBytes len wdata))).setStatus .ok)
  | readShort {n : Arg} : Effect s (.read n) (raise .outOfBits s)
  | read {n : Arg} {v : Nat} (h1 : 1 ≤ n.toNat) (hn : n.toNat ≤ s.bc.remaining) :
    Effect s (.read n) (s.afterRead n.toNat v)
  | hdecShort {cnt : Arg} {wdata : WData} : Effect s (.hdec cnt wdata) (raise .unexpectedEof s)
  | hdec {cnt : Arg} {wdata : WData} {w : HeaderWord} : Effect s (.hdec cnt wdata) (latchHeader w s)
  | sidecShort {plen : Arg} {wdata : WData} (hplen : plen.toNat < 34) :
    Effect s (.sidec plen wdata) (raise .insufficientData s)
  | sidec {plen : Arg} {wdata : WData} {p : List Byte} (hplen : 34 ≤ plen.toNat) (hp : p.length = 34) :
    Effect s (.sidec plen wdata)
      (((s.setCursor ⟨Memory.ofBytes p, 34#6, 272#9⟩).setSi (recordOfBits p)).setStatus .ok)
  | headerRow {i : Instr} {w : HeaderWord} (hi : (blkhdrRow i).isSome = true) : Effect s i (latchHeader w s)
  | si272 {r : Streaminfo} {p : List Byte} (hp : p.length = 34) :
    Effect s (.si272 r) (((s.setCursor ⟨Memory.ofBytes p, 34#6, 272#9⟩).setSi (recordOfBits p)).setStatus .ok)
  | read128Short : Effect s .read128 ((raise .outOfBits s).setHostRead128 none)
  | read128Half {v : Nat} (h : 64 ≤ s.bc.remaining) :
    Effect s .read128 ((raise .outOfBits (s.afterRead 64 v)).setHostRead128 none)
  | read128 {v w : Nat} {x : BitVec 128} (h : 64 ≤ s.bc.remaining) (h' : 64 ≤ (s.afterRead 64 v).bc.remaining) :
    Effect s .read128 (((s.afterRead 64 v).afterRead 64 w).setHostRead128 (some x))

theorem Effect.of_execRead128 {s t : State} (h : execRead128 s = .next t) : Effect s .read128 t := by
  obtain ⟨u, hu, h⟩ := execRead128_cases h
  obtain ⟨-, rfl⟩ | ⟨h64, v, -, rfl⟩ := readAtCursor_cases hu
  · obtain ⟨-, rfl⟩ | ⟨hok, -⟩ := h
    · exact .read128Short
    · cases hok
  · obtain ⟨hfail, -⟩ | ⟨-, w, hw, rfl⟩ := h
    · exact absurd rfl hfail
    · obtain ⟨-, rfl⟩ | ⟨h128, x, -, rfl⟩ := readAtCursor_cases hw
      · exact .read128Half h64
      · exact .read128 h64 h128

/-- The inversion of `exec`: a next state is one of these effects. -/
theorem exec_effect {i : Instr} {s t : State} (h : exec i s = .next t) : Effect s i t := by
  obtain ⟨len, wdata, rfl, hload⟩ | ⟨n, rfl, hread⟩ | ⟨cnt, wdata, rfl, hhdec⟩ | ⟨plen, wdata, rfl, hsidec⟩ |
    ⟨hrow, w, -, rfl⟩ | ⟨r, rfl, rfl⟩ | ⟨rfl, hread128⟩ := exec_cases h
  · obtain ⟨hlen, rfl⟩ | ⟨hlen, rfl⟩ := hload
    · exact .load hlen
    · exact .illegal (decide_eq_false hlen.not_ge)
  · obtain ⟨h1, -, hbody⟩ | ⟨hn, rfl⟩ := hread
    · obtain ⟨-, rfl⟩ | ⟨hn, v, -, rfl⟩ := readAtCursor_cases hbody
      · exact .readShort
      · exact .read h1 hn
    · refine .illegal (decide_eq_false ?_)
      rintro ⟨h1 : 1 ≤ n.toNat, h64 : n.toNat ≤ 64⟩
      omega
  · obtain ⟨-, rfl⟩ | ⟨-, rfl⟩ | ⟨hcnt, rfl⟩ := hhdec
    · exact .hdec
    · exact .hdecShort
    · exact .illegal (decide_eq_false hcnt.not_ge)
  · obtain ⟨hplen, rfl⟩ | ⟨hplen, rfl⟩ := hsidec
    · exact .sidec hplen (length_portBytes wdata 34)
    · exact .sidecShort hplen
  · exact .headerRow hrow
  · exact .si272 (length_portBytes _ 34)
  · exact .of_execRead128 hread128

/-- A header row is no command of the cursor. -/
theorem not_read_of_blkhdrRow {i : Instr} (h : (blkhdrRow i).isSome = true) :
    ¬ ((∃ n, i = .read n) ∨ i = .read128) := by
  rintro (⟨n, rfl⟩ | rfl) <;> cases h

/-- A header row is no payload. -/
theorem not_sidec_of_blkhdrRow {i : Instr} (h : (blkhdrRow i).isSome = true) :
    ¬ ((∃ plen wdata, i = .sidec plen wdata) ∨ ∃ r, i = .si272 r) := by
  rintro (⟨plen, wdata, rfl⟩ | ⟨r, rfl⟩) <;> cases h

/-! ### The frames -/

/-- `busy` and the host's queue are no instruction's to write. -/
theorem Effect.host_side {s t : State} {i : Instr} (h : Effect s i t) :
    t.inFlight = s.inFlight ∧ t.hostQueue = s.hostQueue := by
  cases h <;> exact ⟨rfl, rfl⟩

/-- Settles O36, by LOAD's two equations. -/
theorem loadFrame : Obligations.LoadFrame := by
  intro len wdata s t h
  obtain ⟨hlen, rfl⟩ | ⟨hlen, rfl⟩ := execLoad_cases h
  · refine ⟨rfl, rfl, rfl, rfl, rfl, rfl, ⟨rfl, rfl, rfl⟩, fun hgt => absurd hlen hgt.not_ge, fun _ i hi => ?_⟩
    rw [State.setStatus_bc, State.setCursor_bc, BitCursor.wrap, Memory.readByte_ofBytes, loadBytes_eq,
      getElem?_portBytes, if_neg hi.not_gt]
  · exact ⟨rfl, rfl, rfl, rfl, rfl, rfl, ⟨rfl, rfl, rfl⟩, fun _ => ⟨rfl, fun _ => rfl⟩,
      fun hle => absurd hle hlen.not_ge⟩

/-- Settles O37: READ and READ128 move the offset, write RD and its flag, and end in their own error or none. -/
theorem readFrame : Obligations.ReadFrame := by
  intro i s t hi h
  cases exec_effect h with
  | illegal | readShort | read => exact ⟨fun _ => rfl, rfl, rfl, rfl, rfl, rfl, rfl, rfl, rfl, fun _ => rfl⟩
  | read128Short | read128Half | read128 =>
    exact ⟨fun _ => rfl, rfl, rfl, rfl, rfl, rfl, rfl, rfl, rfl, fun hne => absurd rfl hne⟩
  | headerRow hrow => exact absurd hi (not_read_of_blkhdrRow hrow)
  | _ => simp at hi

/-- Settles O38: HDEC and a header row latch a header word or raise an error, and neither reaches the other units. -/
theorem headerFrame : Obligations.HeaderFrame := by
  intro i s t hi h
  cases exec_effect h with
  | illegal | hdecShort | hdec | headerRow =>
    exact ⟨rfl, fun _ => rfl, rfl, rfl, rfl, rfl, rfl, rfl, rfl⟩
  | _ => simp [blkhdrRow] at hi

theorem readByte_ofBytes_of_length_le {p : List Byte} {k : Nat} (h : p.length ≤ k) :
    (Memory.ofBytes p).readByte k = none := by
  rw [Memory.readByte_ofBytes, List.getElem?_eq_none h]

/-- Settles O39: a payload that is decoded replaces the buffer by its 34 bytes; a short one changes SI_V and STATUS. -/
theorem streaminfoFrame : Obligations.StreaminfoFrame := by
  intro i s t hi h
  cases exec_effect h with
  | illegal hwf =>
    obtain ⟨plen, wdata, rfl⟩ | ⟨r, rfl⟩ := hi
    · exact absurd (legalSidecLen_true plen) (Bool.eq_false_iff.mp hwf)
    · cases hwf
  | sidecShort hplen =>
    exact ⟨rfl, rfl, rfl, rfl, ⟨rfl, rfl, rfl⟩, fun _ _ _ _ => ⟨rfl, fun _ => rfl⟩,
      fun hle => absurd (hle _ _ rfl) hplen.not_ge⟩
  | sidec hplen hp =>
    refine ⟨rfl, rfl, rfl, rfl, ⟨rfl, rfl, rfl⟩, ?_, fun _ k hk => readByte_ofBytes_of_length_le (hp.trans_le hk)⟩
    rintro _ _ ⟨⟩ hlt
    exact absurd hplen hlt.not_ge
  | si272 hp =>
    exact ⟨rfl, rfl, rfl, rfl, ⟨rfl, rfl, rfl⟩, nofun, fun _ k hk => readByte_ofBytes_of_length_le (hp.trans_le hk)⟩
  | headerRow hrow => exact absurd hi (not_sidec_of_blkhdrRow hrow)
  | _ => simp at hi

/-- Settles O19: besides the three commands named, only a READ that succeeds touches the cursor, and it advances it. -/
theorem cursorIsForwardOnly : Obligations.CursorIsForwardOnly := by
  intro i s t _ h
  cases exec_effect h with
  | load hlen => exact .inl ⟨_, _, rfl, hlen⟩
  | sidec hplen => exact .inr (.inl ⟨_, _, rfl, hplen⟩)
  | si272 => exact .inr (.inr (.inl ⟨_, rfl⟩))
  | read h1 hn => exact .inr (.inr (.inr ⟨rfl, rfl, State.off_le_afterRead hn h1 _⟩))
  | @read128Half v hn => exact .inr (.inr (.inr ⟨rfl, rfl, State.off_le_afterRead hn (by decide) v⟩))
  | read128 hn hn' =>
    exact .inr (.inr (.inr ⟨rfl, rfl,
      (State.off_le_afterRead hn (by decide) _).trans (State.off_le_afterRead hn' (by decide) _)⟩))
  | _ => exact .inr (.inr (.inr ⟨rfl, rfl, le_rfl⟩))

/-! ### Errors and flags -/

/-- Settles O43: each effect ends in one status, and the error statuses stand under the commands that raise them. -/
theorem errorsBelongToTheirUnits : Obligations.ErrorsBelongToTheirUnits := by
  intro i s t h
  cases exec_effect h with
  | illegal hwf => exact ⟨nofun, nofun, nofun, fun _ => hwf⟩
  | readShort => exact ⟨fun _ => .inl ⟨_, rfl⟩, nofun, nofun, nofun⟩
  | read128Short | read128Half => exact ⟨fun _ => .inr rfl, nofun, nofun, nofun⟩
  | hdecShort => exact ⟨nofun, fun _ => ⟨_, _, rfl⟩, nofun, nofun⟩
  | sidecShort => exact ⟨nofun, nofun, fun _ => ⟨_, _, rfl⟩, nofun⟩
  | _ => exact ⟨nofun, nofun, nofun, nofun⟩

/-- Settles O44: each effect sets, clears or leaves each flag, as its one status says. -/
theorem validFlagsFollowTheirUnit : Obligations.ValidFlagsFollowTheirUnit := by
  intro i s t h
  cases exec_effect h with
  | headerRow hrow => simp [hrow, not_read_of_blkhdrRow hrow, not_sidec_of_blkhdrRow hrow]
  | _ => simp [blkhdrRow, rdVAfter, hdrVAfter, siVAfter]

/-- An instruction with an operand out of R81's range changes STATUS alone (R189). -/
theorem exec_of_not_wellFormed {i : Instr} (hi : i.wellFormed = false) (s : State) :
    exec i s = .next (s.setStatus .illegalCommand) := by
  cases i with
  | load len wdata => exact exec_load_of_illegal (Nat.not_le.mp (of_decide_eq_false hi)) wdata s
  | read n => exact exec_read_of_illegal (by have : ¬ (1 ≤ n.toNat ∧ n.toNat ≤ 64) := of_decide_eq_false hi; omega) s
  | hdec cnt wdata => exact exec_hdec_of_illegal (Nat.not_le.mp (of_decide_eq_false hi)) wdata s
  | sidec plen wdata => exact absurd (legalSidecLen_true plen) (Bool.eq_false_iff.mp hi)
  | _ => cases hi

/-- A word with a zero `zero` field decodes, to an ill-formed instruction just when its operand is out of R81's
range. -/
theorem exists_decode_command {cmd : CmdWord} (hzero : bitSlice cmd.toNat 29 24 = 0) (wdata : WData) :
    ∃ i, decode (.command cmd wdata) = .ok i ∧
      (i.wellFormed = false ↔
        (bitSlice cmd.toNat 31 30 = 0 ∧ 34 < bitSlice cmd.toNat 23 0) ∨
        (bitSlice cmd.toNat 31 30 = 1 ∧ (bitSlice cmd.toNat 23 0 = 0 ∨ 64 < bitSlice cmd.toNat 23 0)) ∨
        (bitSlice cmd.toNat 31 30 = 2 ∧ 4 < bitSlice cmd.toNat 23 0)) := by
  have harg := toNat_cmdArg cmd
  obtain hop | hop | hop | hop := bitSlice_op_cases cmd
  · refine ⟨_, decode_command_load hop hzero wdata, ?_⟩
    simp [Instr.wellFormed, legalLoadLen, Config.bufBytes, hop, harg]
  · refine ⟨_, decode_command_read hop hzero wdata, ?_⟩
    simp [Instr.wellFormed, legalReadWidth, Config.minRead, Config.maxRead, hop, harg]
    omega
  · refine ⟨_, decode_command_hdec hop hzero wdata, ?_⟩
    simp [Instr.wellFormed, legalHdecCount, Config.hdrBytes, hop, harg]
  · refine ⟨_, decode_command_sidec hop hzero wdata, ?_⟩
    simp [Instr.wellFormed, legalSidecLen_true, hop]

/-- Settles O40: a word with a nonzero `zero` field is not decoded; of the others just the ones with an operand out of
range decode to an instruction that is not well formed, and just these end in IllegalCommand. -/
theorem illegalCommandWords : Obligations.IllegalCommandWords := by
  intro s cmd wdata rest hidle hqueue op arg illegal
  rw [step_of_idle_request hidle hqueue]
  by_cases hzero : bitSlice cmd.toNat 29 24 = 0
  · obtain ⟨i, hdecode, hi⟩ := exists_decode_command hzero wdata
    have hillegal : illegal ↔ i.wellFormed = false := (or_iff_right (not_not.mpr hzero)).trans hi.symm
    rw [runRequest_ok hdecode, hillegal]
    refine ⟨fun hwf => exec_of_not_wellFormed hwf _, fun hwf t ht hstatus => ?_⟩
    obtain ⟨-, -, -, hillegal⟩ := errorsBelongToTheirUnits i _ t ht
    exact hwf (hillegal hstatus)
  · rw [runRequest_of_decode_error (decode_command_of_zero_ne hzero wdata)]
    exact ⟨fun _ => rfl, fun hlegal => absurd (.inl hzero) hlegal⟩

end Sys2Proof.Machine
end

section
/-!
PROOFS. The step (R20, R25, R85, R217): the invariant of the cursor is kept by every instruction and every step, no step
hangs, and two states with the same cursor are left alike by the same instruction.
-/

namespace Sys2Proof.Machine

/-! ### The invariant -/

/-- A payload of 34 bytes that has been read to its end. -/
theorem BitCursor.inv_of_payload {p : List Byte} (hp : p.length = 34) :
    (⟨Memory.ofBytes p, 34#6, 272#9⟩ : BitCursor).Inv := by
  simp [BitCursor.Inv, hp, Config.bufBytes]

/-- An instruction keeps the invariant of the cursor: it binds a new buffer, advances inside the old one, or does not
touch it. -/
theorem Effect.bc_inv {s t : State} {i : Instr} (h : Effect s i t) (hs : s.bc.Inv) : t.bc.Inv := by
  cases h with
  | @load len wdata hlen => exact BitCursor.wrap_inv _ (by rwa [loadBytes_eq, length_portBytes])
  | read _ hn => exact State.afterRead_bc_inv hs hn _
  | sidec _ hp => exact BitCursor.inv_of_payload hp
  | si272 hp => exact BitCursor.inv_of_payload hp
  | @read128Half v hn => exact State.afterRead_bc_inv hs hn v
  | @read128 v w _ hn hn' => exact State.afterRead_bc_inv (State.afterRead_bc_inv hs hn v) hn' w
  | _ => exact hs

theorem runRequest_inv {r : Request} {s t : State} (hs : s.Inv) (h : runRequest r s = .next t) : t.Inv := by
  obtain ⟨hcursor, hflight⟩ := hs
  obtain ⟨i, -, hexec⟩ | rfl := runRequest_cases h
  · have heffect := exec_effect hexec
    obtain ⟨hinFlight, -⟩ := heffect.host_side
    exact ⟨heffect.bc_inv hcursor, hinFlight ▸ hflight⟩
  · exact ⟨hcursor, hflight⟩

theorem completeFlight_inv {f : Flight} {s t : State} (hs : s.Inv) (h : completeFlight f s = .next t) : t.Inv := by
  obtain ⟨hcursor, -⟩ := hs
  exact runRequest_inv (s := s.setInFlight none) ⟨hcursor, rfl⟩ h

/-- Settles O2: the reset cursor is bound to no bytes, and nothing is in flight. -/
theorem resetMeetsCursorInvariant : Obligations.ResetMeetsCursorInvariant :=
  ⟨BitCursor.wrap_inv [] (Nat.zero_le _), rfl⟩

theorem applyReset_inv (s : State) : (applyReset s).Inv := resetMeetsCursorInvariant

/-- Settles O3: a step is a reset, the completion of a flight, a request or nothing, and each keeps the invariant. -/
theorem stepKeepsCursorInvariant : Obligations.StepKeepsCursorInvariant := by
  intro s t hs h
  obtain ⟨rest, -, hstep⟩ | ⟨f, -, hstep⟩ | ⟨r, rest, -, -, hstep⟩ | ⟨-, -, hstep⟩ := step_cases s
  all_goals rw [hstep] at h
  · cases h
    exact applyReset_inv _
  · exact completeFlight_inv hs h
  · exact runRequest_inv (s := s.setHostQueue rest) hs h
  · cases h
    exact hs

/-! ### Every step answers -/

/-- Inside the invariant no instruction faults. -/
theorem exec_answers {s : State} (hs : s.bc.Inv) (i : Instr) : ∃ t, exec i s = .next t := by
  by_cases hrow : (blkhdrRow i).isSome = true
  · obtain ⟨w, -, hw⟩ := exec_headerRow hrow s
    exact ⟨_, hw⟩
  by_cases hwf : i.wellFormed = false
  · exact ⟨_, exec_of_not_wellFormed hwf s⟩
  cases i with
  | load len wdata => exact ⟨_, exec_load_of_legal (by simpa [Instr.wellFormed, legalLoadLen_iff] using hwf) wdata s⟩
  | read n =>
    obtain ⟨h1, h64⟩ : 1 ≤ n.toNat ∧ n.toNat ≤ 64 := by simpa [Instr.wellFormed, legalReadWidth_iff] using hwf
    obtain hshort | hle := Nat.lt_or_ge s.bc.remaining n.toNat
    · exact ⟨_, exec_read_of_remaining_lt h1 h64 hshort⟩
    · exact ⟨_, exec_read_of_le_remaining hs h1 h64 hle⟩
  | hdec cnt wdata =>
    have hcnt : cnt.toNat ≤ 4 := by simpa [Instr.wellFormed, legalHdecCount_iff] using hwf
    obtain hshort | hfour := hcnt.lt_or_eq
    · exact ⟨_, exec_hdec_of_short hshort wdata s⟩
    · exact ⟨_, exec_hdec_of_eq_four hfour wdata s⟩
  | sidec plen wdata =>
    obtain hshort | hle := Nat.lt_or_ge plen.toNat 34
    · exact ⟨_, exec_sidec_of_short hshort wdata s⟩
    · exact ⟨_, exec_sidec_of_le hle wdata s⟩
  | si272 r => exact ⟨_, execSi272_eq r s⟩
  | read128 =>
    obtain hshort | h64 := Nat.lt_or_ge s.bc.remaining 64
    · exact ⟨_, exec_read128_of_lt_64 hshort⟩
    · obtain hhalf | hle := Nat.lt_or_ge s.bc.remaining 128
      · exact ⟨_, exec_read128_of_lt_128 hs h64 hhalf⟩
      · exact ⟨_, exec_read128_of_le hs hle⟩
  | _ => exact absurd rfl hrow

theorem runRequest_answers {s : State} (hs : s.bc.Inv) (r : Request) : ∃ t, runRequest r s = .next t := by
  cases hdecode : decode r with
  | ok i =>
    rw [runRequest_ok hdecode]
    exact exec_answers hs i
  | error e =>
    cases e
    exact ⟨_, runRequest_of_decode_error hdecode s⟩

theorem completeFlight_answers {s : State} (hs : s.bc.Inv) (f : Flight) : ∃ t, completeFlight f s = .next t :=
  runRequest_answers (s := s.setInFlight none) hs _

/-- Settles O4: the requests a step runs all answer. -/
theorem stepAlwaysCompletes : Obligations.StepAlwaysCompletes := by
  intro s ⟨hs, _⟩
  obtain ⟨rest, -, hstep⟩ | ⟨f, -, hstep⟩ | ⟨r, rest, -, -, hstep⟩ | ⟨-, -, hstep⟩ := step_cases s
  all_goals rw [SafeStep, hstep]
  · exact ⟨_, rfl⟩
  · exact completeFlight_answers hs f
  · exact runRequest_answers (s := s.setHostQueue rest) hs r
  · exact ⟨_, rfl⟩

/-! ### Steps named -/

/-- Settles O6: a presented request is taken off the queue, decoded and run. -/
theorem stepRunsDecodedInstruction : Obligations.StepRunsDecodedInstruction := by
  intro s r rest i hidle hqueue hdecode
  rw [step_of_idle_request hidle hqueue, runRequest_ok hdecode]
  rfl

/-- Settles O7, by the last case of the step. -/
theorem idleBlockHoldsItsRegisters : Obligations.IdleBlockHoldsItsRegisters := by
  intro s hidle hqueue
  simp [step, nextStep, hidle, hqueue]

/-- Settles O8, by the first case of the step: a reset is looked for before anything in flight. -/
theorem resetStepFromAnyState : Obligations.ResetStepFromAnyState := by
  intro s rest hqueue
  simp [step, nextStep, hqueue, applyReset]

/-! ### What an instruction reads -/

/-- The two next states have the same cursor and STATUS, and each result and flag is the same in both or is still what
it was in each (R217). -/
abbrev Agree (s s' t t' : State) : Prop :=
  t.bc = t'.bc ∧ t.status = t'.status ∧
    (t.rd = t'.rd ∨ (t.rd = s.rd ∧ t'.rd = s'.rd)) ∧
    (t.rdV = t'.rdV ∨ (t.rdV = s.rdV ∧ t'.rdV = s'.rdV)) ∧
    (t.hdr = t'.hdr ∨ (t.hdr = s.hdr ∧ t'.hdr = s'.hdr)) ∧
    (t.hdrV = t'.hdrV ∨ (t.hdrV = s.hdrV ∧ t'.hdrV = s'.hdrV)) ∧
    (t.si = t'.si ∨ (t.si = s.si ∧ t'.si = s'.si)) ∧
    (t.siV = t'.siV ∨ (t.siV = s.siV ∧ t'.siV = s'.siV)) ∧
    (t.hostRead128 = t'.hostRead128 ∨ (t.hostRead128 = s.hostRead128 ∧ t'.hostRead128 = s'.hostRead128))

theorem Agree.raise {s s' : State} (hb : s.bc = s'.bc) (st : Status) : Agree s s' (raise st s) (raise st s') := by
  cases st <;> simp [Agree, hb, rdVAfter, hdrVAfter, siVAfter]

theorem Agree.latchHeader {s s' : State} (hb : s.bc = s'.bc) (w : HeaderWord) :
    Agree s s' (latchHeader w s) (latchHeader w s') := by
  simp [Agree, hb]

theorem Agree.setCursor (s s' : State) (c : BitCursor) :
    Agree s s' ((s.setCursor c).setStatus .ok) ((s'.setCursor c).setStatus .ok) := by
  simp [Agree]

theorem Agree.setSi (s s' : State) (c : BitCursor) (r : Streaminfo) :
    Agree s s' (((s.setCursor c).setSi r).setStatus .ok) (((s'.setCursor c).setSi r).setStatus .ok) := by
  simp [Agree]

/-- READ's body does the same at the same cursor: it runs out of bits in both states, or gives both the same value. -/
theorem readAtCursor_same {n : Nat} {s s' t t' : State} (hb : s.bc = s'.bc) (h : readAtCursor n s = .next t)
    (h' : readAtCursor n s' = .next t') :
    (t = raise .outOfBits s ∧ t' = raise .outOfBits s') ∨
      ∃ v, t = s.afterRead n v ∧ t' = s'.afterRead n v := by
  obtain ⟨hlt, rfl⟩ | ⟨hle, v, hv, rfl⟩ := readAtCursor_cases h <;>
    obtain ⟨hlt', rfl⟩ | ⟨hle', v', hv', rfl⟩ := readAtCursor_cases h'
  · exact .inl ⟨rfl, rfl⟩
  · rw [hb] at hlt
    omega
  · rw [hb] at hle
    omega
  · rw [hb, hv'] at hv
    cases hv
    exact .inr ⟨v, rfl, rfl⟩

theorem Agree.readAtCursor {n : Nat} {s s' t t' : State} (hb : s.bc = s'.bc) (h : readAtCursor n s = .next t)
    (h' : readAtCursor n s' = .next t') : Agree s s' t t' := by
  obtain ⟨rfl, rfl⟩ | ⟨v, rfl, rfl⟩ := readAtCursor_same hb h h'
  · exact Agree.raise hb _
  · simp [Agree, hb]

theorem Agree.execRead128 {s s' t t' : State} (hb : s.bc = s'.bc) (h : execRead128 s = .next t)
    (h' : execRead128 s' = .next t') : Agree s s' t t' := by
  obtain ⟨u, hu, h⟩ := execRead128_cases h
  obtain ⟨u', hu', h'⟩ := execRead128_cases h'
  obtain ⟨rfl, rfl⟩ | ⟨v, rfl, rfl⟩ := readAtCursor_same hb hu hu'
  · simp only [raise_status, ne_eq, reduceCtorEq, not_false_eq_true, true_and, false_and, or_false] at h h'
    rw [h, h']
    simp [Agree, hb, rdVAfter, hdrVAfter, siVAfter]
  · simp only [State.setStatus_status, ne_eq, not_true_eq_false, true_and, false_and, false_or] at h h'
    obtain ⟨w, hw, rfl⟩ := h
    obtain ⟨w', hw', rfl⟩ := h'
    obtain ⟨rfl, rfl⟩ | ⟨x, rfl, rfl⟩ := readAtCursor_same (by simp [hb]) hw hw'
    · simp [Agree, hb, rdVAfter, hdrVAfter, siVAfter]
    · simp [Agree, hb]

/-- Settles O45, instruction by instruction: which effect it has depends on its operands and on the cursor. -/
theorem commandsReadOnlyTheCursor : Obligations.CommandsReadOnlyTheCursor := by
  intro i s s' t t' hb h h'
  have same {u u' : State} (e : exec i s = .next u) (e' : exec i s' = .next u') (hu : Agree s s' u u') :
      Agree s s' t t' := by
    rw [e] at h
    rw [e'] at h'
    cases h
    cases h'
    exact hu
  by_cases hrow : (blkhdrRow i).isSome = true
  · obtain ⟨w, hw, e⟩ := exec_headerRow hrow s
    obtain ⟨w', hw', e'⟩ := exec_headerRow hrow s'
    rw [hw] at hw'
    cases hw'
    exact same e e' (Agree.latchHeader hb w)
  by_cases hwf : i.wellFormed = false
  · exact same (exec_of_not_wellFormed hwf s) (exec_of_not_wellFormed hwf s') (Agree.raise hb .illegalCommand)
  cases i with
  | load len wdata =>
    have hlen : len.toNat ≤ 34 := by simpa [Instr.wellFormed, legalLoadLen_iff] using hwf
    exact same (exec_load_of_legal hlen wdata s) (exec_load_of_legal hlen wdata s') (Agree.setCursor s s' _)
  | read n =>
    have hlegal : legalReadWidth n = true := Bool.eq_true_of_not_eq_false hwf
    exact Agree.readAtCursor hb ((if_pos hlegal).symm.trans h) ((if_pos hlegal).symm.trans h')
  | hdec cnt wdata =>
    have hcnt : cnt.toNat ≤ 4 := by simpa [Instr.wellFormed, legalHdecCount_iff] using hwf
    obtain hshort | hfour := hcnt.lt_or_eq
    · exact same (exec_hdec_of_short hshort wdata s) (exec_hdec_of_short hshort wdata s')
        (Agree.raise hb .unexpectedEof)
    · exact same (exec_hdec_of_eq_four hfour wdata s) (exec_hdec_of_eq_four hfour wdata s') (Agree.latchHeader hb _)
  | sidec plen wdata =>
    obtain hshort | hle := Nat.lt_or_ge plen.toNat 34
    · exact same (exec_sidec_of_short hshort wdata s) (exec_sidec_of_short hshort wdata s')
        (Agree.raise hb .insufficientData)
    · exact same (exec_sidec_of_le hle wdata s) (exec_sidec_of_le hle wdata s') (Agree.setSi s s' _ _)
  | si272 r => exact same (execSi272_eq r s) (execSi272_eq r s') (Agree.setSi s s' _ _)
  | read128 => exact Agree.execRead128 hb h h'
  | _ => exact absurd rfl hrow

end Sys2Proof.Machine
end

section
/-!
PROOFS. Header words and STREAMINFO payloads as numbers (R72, R77, R124, R139, R142): the fields HDEC and SIDEC latch by
byte arithmetic, as slices and as the values the cursor reads, and the statements about the two decoders.
-/

namespace Sys2Proof.Machine

/-! ### Lanes of the port -/

theorem portByte_lt (wdata : WData) (i : Nat) : portByte wdata i < 2 ^ 8 := by
  rw [portByte, bitSlice, Nat.add_sub_cancel_left]
  exact Nat.mod_lt _ (by decide)

theorem toNat_byteLane (wdata : WData) (i : Nat) : (byteLane wdata i).toNat = portByte wdata i := by
  rw [byteLane_eq, BitVec.toNat_ofNat, Nat.mod_eq_of_lt (portByte_lt wdata i)]

theorem toNat_getD_portBytes (wdata : WData) {n i : Nat} (hi : i < n) :
    ((portBytes wdata n).getD i 0#8).toNat = portByte wdata i := by
  rw [← toNat_byteLane, List.getD_eq_getElem?_getD, getElem?_portBytes, if_pos hi, Option.getD_some, byteLane_eq]

/-! ### Header words -/

/-- HDEC's operand in a word presented with 00 in the other lanes is that word (R91). -/
theorem headerOperand_append (w : HeaderWord) : headerOperand (w ++ 0#240) = w := by
  have lane (i : Nat) (hi : i < 4) : byteLane (w ++ 0#240) i = w.extractLsb' (8 * (3 - i)) 8 := by
    have hpos : 8 * (34 - 1 - i) - 240 = 8 * (3 - i) := by omega
    rw [byteLane, Config.bufBytes, BitVec.extractLsb'_append_eq_of_le (by omega), hpos]
  rw [headerOperand, lane 0 (by decide), lane 1 (by decide), lane 2 (by decide), lane 3 (by decide)]
  iterate 3 rw [BitVec.extractLsb'_append_extractLsb'_eq_extractLsb' (by rfl)]
  exact BitVec.extractLsb'_eq_self

theorem exec_hdec_word (w : HeaderWord) (s : State) :
    exec (.hdec 4#24 (w ++ 0#240)) s = .next (latchHeader w s) := by
  rw [exec_hdec_of_eq_four rfl, headerOperand_append, latchHeader_eq]

theorem headerRegsOf_packHdr (isLast : Bool) (code : BitVec 7) (length : BitVec 24) :
    headerRegsOf (packHdr isLast code length) = ⟨isLast, code, length⟩ := by
  obtain ⟨hlast, htype, hlength⟩ := Laws.packHdr_fields isLast code length
  rw [headerRegsOf, hlast, htype, hlength]

/-- R124, one way: the three registers determine the word. -/
theorem headerRegsOf_injective {w w' : HeaderWord} (h : headerRegsOf w = headerRegsOf w') : w = w' := by
  injection h with hlast htype hlength
  rw [← packHdr_of_fields w, ← packHdr_of_fields w', hlast, htype, hlength]

theorem ofNat_eq_packHdr (isLast : Bool) (code : BitVec 7) (length : BitVec 24) :
    BitVec.ofNat 32 (isLast.toNat * 2 ^ 31 + code.toNat * 2 ^ 24 + length.toNat) = packHdr isLast code length := by
  have h : (packHdr isLast code length).toNat = isLast.toNat * 2 ^ 31 + code.toNat * 2 ^ 24 + length.toNat := by
    simp only [packHdr, toNat_append_eq_mul_add, BitVec.toNat_ofBool]
    ring
  rw [← h, BitVec.ofNat_toNat, BitVec.setWidth_eq]

/-- Settles O22: the operand is the number of its four lanes, and R71's slices of it are R72's byte arithmetic. -/
theorem hdecCompletes : Obligations.HdecCompletes := by
  intro cnt wdata s hcnt
  have hword : (headerOperand wdata).toNat =
      portByte wdata 0 * 2 ^ 24 + portByte wdata 1 * 2 ^ 16 + portByte wdata 2 * 2 ^ 8 + portByte wdata 3 := by
    simp only [headerOperand, toNat_append_eq_mul_add, toNat_byteLane]
    ring
  obtain ⟨hlast, htype, hlength⟩ := hdr_fields (headerOperand wdata)
  have h0 := portByte_lt wdata 0
  have h1 := portByte_lt wdata 1
  have h2 := portByte_lt wdata 2
  have h3 := portByte_lt wdata 3
  rw [hword, bitSlice] at hlast htype hlength
  refine ⟨_, exec_hdec_of_eq_four hcnt wdata s, hlast.trans (decide_eq_decide.mpr ?_), htype.trans ?_, hlength.trans ?_,
    rfl, rfl, rfl, fun _ => rfl, rfl, rfl, rfl, rfl, rfl, rfl, rfl⟩ <;> omega

/-- Settles O24: HDEC latches R71's slices of the word. -/
theorem headerFieldIndependence : Obligations.HeaderFieldIndependence := by
  intro w w' s s' t t' h h'
  rw [exec_hdec_word] at h h'
  cases h
  cases h'
  obtain ⟨hlast, htype, hlength⟩ := hdr_fields w
  obtain ⟨hlast', htype', hlength'⟩ := hdr_fields w'
  refine ⟨fun e => ?_, fun e => ?_, fun e => ?_⟩
  · exact hlast.trans (by rw [e, ← hlast']; rfl)
  · exact BitVec.eq_of_toNat_eq (htype.trans (e.trans htype'.symm))
  · exact BitVec.eq_of_toNat_eq (hlength.trans (e.trans hlength'.symm))

/-- Settles O25: the registers HDEC latches determine the word, and PackHdr's word latches any three values. -/
theorem headerWordsAreABijection : Obligations.HeaderWordsAreABijection := by
  refine ⟨fun w w' s s' t t' h h' heq => ?_, fun ⟨isLast, code, length⟩ s => ?_⟩
  · rw [exec_hdec_word] at h h'
    cases h
    cases h'
    exact headerRegsOf_injective heq
  · exact ⟨_, exec_hdec_word _ s, by rw [latchHeader_hdr, ofNat_eq_packHdr, headerRegsOf_packHdr]⟩

/-- The code of a row with open low bits. -/
theorem ofNat_append_eq_ofNat {hi lo k : Nat} (hk : k < 2 ^ hi) (low : BitVec lo) :
    BitVec.ofNat hi k ++ low = BitVec.ofNat (hi + lo) (k * 2 ^ lo + low.toNat) := by
  apply BitVec.eq_of_toNat_eq
  have hlt : k * 2 ^ lo + low.toNat < 2 ^ (hi + lo) := by
    have := low.isLt
    rw [pow_add]
    nlinarith
  rw [toNat_append_eq_mul_add, BitVec.toNat_ofNat, BitVec.toNat_ofNat, Nat.mod_eq_of_lt hk, Nat.mod_eq_of_lt hlt]

/-- Settles O27: a row latches the word it packs, whose registers are the row's code and its other fields. -/
theorem headerRowsComplete : Obligations.HeaderRowsComplete := by
  intro isLast length s b1 b2 b3 b4 b5 latched
  have row {code : BitVec 7} {n : Nat} (hcode : code = BitVec.ofNat 7 n) :
      .next (latchHeader (packHdr isLast code length) s) = latched n := by
    rw [latchHeader_eq, headerRegsOf_packHdr, hcode]
  exact ⟨row rfl, row rfl, row rfl, row rfl, row rfl, row rfl, row rfl, row rfl,
    row (ofNat_append_eq_ofNat (hi := 4) (k := 1) (by decide) b3),
    row (ofNat_append_eq_ofNat (hi := 3) (k := 1) (by decide) b4),
    row (ofNat_append_eq_ofNat (hi := 2) (k := 1) (by decide) b5),
    row (ofNat_append_eq_ofNat (hi := 2) (k := 2) (by decide) b5),
    row (ofNat_append_eq_ofNat (hi := 3) (k := 6) (by decide) b4),
    row (ofNat_append_eq_ofNat (hi := 4) (k := 14) (by decide) b3),
    row (ofNat_append_eq_ofNat (hi := 5) (k := 30) (by decide) b2),
    row (ofNat_append_eq_ofNat (hi := 6) (k := 62) (by decide) b1), row rfl, row rfl⟩

/-- The number of all the bytes. -/
theorem bitField_all {p : List Byte} {n : Nat} (hp : p.length = n) : bitField p 0 (8 * n) = bigEndian p := by
  rw [show 0 = 8 * 0 from rfl, bitField_bytes p 0 n (by omega), List.drop_zero, List.take_of_length_le hp.le]

/-- A cursor over the bytes `p` that stands at stream bit `k`. -/
abbrev BitCursor.over (p : List Byte) (k : Nat) : BitCursor :=
  ⟨Memory.ofBytes p, BitVec.ofNat 6 p.length, BitVec.ofNat 9 k⟩

section
variable {p : List Byte} {k : Nat} (hp : p.length ≤ 34) (hk : k ≤ 8 * p.length)
include hp hk

theorem BitCursor.toNat_off_over : (BitCursor.over p k).off.toNat = k :=
  Nat.mod_eq_of_lt (by omega)

theorem BitCursor.remaining_over : (BitCursor.over p k).remaining = 8 * p.length - k := by
  have hlen : (BitVec.ofNat 6 p.length).toNat = p.length := Nat.mod_eq_of_lt (by omega)
  rw [BitCursor.remaining, BitCursor.toNat_off_over hp hk, hlen]

theorem BitCursor.over_inv : (BitCursor.over p k).Inv := by
  have hrem : (BitCursor.wrap p).remaining = 8 * p.length := BitCursor.remaining_over hp (Nat.zero_le _)
  have hadvance := (BitCursor.wrap p).advance_inv k (BitCursor.wrap_inv p hp) (hrem ▸ hk)
  rwa [show (BitCursor.wrap p).off.toNat = 0 from rfl, Nat.zero_add] at hadvance

end

theorem exec_load_over {len : Arg} (h : len.toNat ≤ 34) (wdata : WData) (s : State) :
    exec (.load len wdata) s = .next ((s.setCursor (.over (portBytes wdata len.toNat) 0)).setStatus .ok) := by
  rw [exec_load_of_legal h, BitCursor.over, length_portBytes]
  rfl

/-- READ at stream bit `k` of the bytes `p` returns the field it covers and stands past it. -/
theorem exec_read_over {p : List Byte} {s : State} {k : Nat} {n : Arg} (hs : s.bc = .over p k) (hp : p.length ≤ 34)
    (h1 : 1 ≤ n.toNat) (h64 : n.toNat ≤ 64) (hk : k + n.toNat ≤ 8 * p.length) :
    ∃ t, exec (.read n) s = .next t ∧ t.rd.toNat = bitField p k n.toNat ∧ t.bc = .over p (k + n.toNat) ∧
      t.status = .ok := by
  have hle : k ≤ 8 * p.length := by omega
  have hinv : s.bc.Inv := hs ▸ BitCursor.over_inv hp hle
  have hrem : n.toNat ≤ s.bc.remaining := by
    rw [hs, BitCursor.remaining_over hp hle]
    omega
  have hoff : s.bc.off.toNat = k := hs ▸ BitCursor.toNat_off_over hp hle
  have hbytes : s.bytes = p := by rw [State.bytes, hs, Memory.bytes_ofBytes]
  refine ⟨_, exec_read_of_le_remaining hinv h1 h64 hrem, ?_, ?_, rfl⟩
  · rw [State.setStatus_rd, State.setRd_rd, toNat_ofNat_bitField h64, hbytes, hoff]
  · rw [State.setStatus_bc, State.setRd_bc, State.setCursor_bc, hoff, hs]

/-- Settles O29: the three READs cover bit 0, bits 1..7 and bits 8..31 of the four bytes, whose number is HDEC's
operand. -/
theorem cursorAgreesWithHdec : Obligations.CursorAgreesWithHdec := by
  intro wdata s
  have hp : (portBytes wdata 4).length = 4 := length_portBytes wdata 4
  have hword : (headerOperand wdata).toNat = bitField (portBytes wdata 4) 0 32 := by
    rw [toNat_headerOperand, ← bitField_all hp]
  obtain ⟨-, htype, hlength⟩ := hdr_fields (headerOperand wdata)
  have ha := exec_load_over (len := 4#24) (by decide) wdata s
  obtain ⟨b, hb, hbrd, hbc, -⟩ := exec_read_over (p := portBytes wdata 4) (k := 0) (n := 1#24)
    (s := (s.setCursor (.over (portBytes wdata 4) 0)).setStatus .ok) rfl (by omega) (by decide) (by decide)
    (by rw [hp]; decide)
  obtain ⟨c, hc, hcrd, hcc, -⟩ := exec_read_over (n := 7#24) hbc (by omega) (by decide) (by decide) (by rw [hp]; decide)
  obtain ⟨d, hd, hdrd, hdc, hok⟩ :=
    exec_read_over (n := 24#24) hcc (by omega) (by decide) (by decide) (by rw [hp]; decide)
  refine ⟨_, _, b, c, d, exec_hdec_of_eq_four rfl wdata s, ha, hb, hc, hd, ?_, ?_, ?_, ?_, hok⟩
  · calc b.rd.toNat
      _ = bitField (portBytes wdata 4) 0 32 / 2 ^ 31 % 2 ^ 1 := hbrd.trans (bitField_eq_div_mod _ 0 0 1 31)
      _ = bitSlice (headerOperand wdata).toNat 31 31 := by rw [← hword]; rfl
      _ = _ := (toNat_hdrIsLast _).symm
  · calc c.rd.toNat
      _ = bitField (portBytes wdata 4) 0 32 / 2 ^ 24 % 2 ^ 7 := hcrd.trans (bitField_eq_div_mod _ 0 1 7 24)
      _ = bitSlice (headerOperand wdata).toNat 30 24 := by rw [← hword]; rfl
      _ = _ := htype.symm
  · calc d.rd.toNat
      _ = bitField (portBytes wdata 4) 0 32 / 2 ^ 0 % 2 ^ 24 := hdrd.trans (bitField_eq_div_mod _ 0 8 24 0)
      _ = bitSlice (headerOperand wdata).toNat 23 0 := by rw [← hword]; rfl
      _ = _ := hlength.symm
  · rw [hdc]
    rfl

/-! ### STREAMINFO payloads -/

/-- A stream bit of the payload's bytes is a bit of its number, the first one most significant. -/
theorem streamBitOf_portBytes (wdata : WData) {k : Nat} (hk : k < 272) :
    streamBitOf (portBytes wdata 34) k = wdata.toNat / 2 ^ (271 - k) % 2 := by
  have hlow : 7 - k % 8 < 8 := by omega
  have hbit : 7 - k % 8 + 8 * (33 - k / 8) = 271 - k := by omega
  rw [streamBitOf, toNat_getD_portBytes wdata (by omega), portByte, bitSlice, ← Nat.toNat_testBit, ← Nat.toNat_testBit,
    Nat.testBit_mod_two_pow, Nat.testBit_div_two_pow, hbit]
  simp [hlow]

/-- A bit field of the payload's bytes is a slice of its number (R139). -/
theorem bitField_portBytes (wdata : WData) {k n : Nat} (h : k + n ≤ 272) :
    bitField (portBytes wdata 34) k n = wdata.toNat / 2 ^ (272 - k - n) % 2 ^ n := by
  induction n with
  | zero => simp [bitField_zero, Nat.mod_one]
  | succ n ih =>
    rw [bitField_succ, ih (by omega), streamBitOf_portBytes wdata (by omega),
      show 272 - k - n = 271 - (k + n) + 1 by omega, show 272 - k - (n + 1) = 271 - (k + n) by omega,
      pow_succ, ← Nat.div_div_eq_div_mul, pow_succ', Nat.mod_mul]
    omega

theorem ofNat_bitField_portBytes (wdata : WData) {k n : Nat} (h : k + n ≤ 272) :
    BitVec.ofNat n (bitField (portBytes wdata 34) k n) = wdata.extractLsb' (272 - k - n) n := by
  apply BitVec.eq_of_toNat_eq
  rw [toNat_ofNat_bitField le_rfl, bitField_portBytes wdata h, BitVec.extractLsb'_toNat, Nat.shiftRight_eq_div_pow]

/-- The record of the ten reads is the record of the nine slices (R139). -/
theorem recordOfBits_portBytes (wdata : WData) : recordOfBits (portBytes wdata 34) = unpackSI wdata := by
  simp only [recordOfBits, unpackSI]
  simp (disch := decide) only [ofNat_bitField_portBytes]

theorem toNat_extractLsb'_eq_bitSlice {w hi lo n : Nat} (h : hi - lo + 1 = n) (x : BitVec w) :
    (x.extractLsb' lo n).toNat = bitSlice x.toNat hi lo := by
  rw [BitVec.extractLsb'_toNat, Nat.shiftRight_eq_div_pow, bitSlice, h]

/-- Settles O31: SIDEC's record is the record of the nine slices. -/
theorem sidecFieldsAreSlices : Obligations.SidecFieldsAreSlices := by
  intro plen wdata s t hplen h
  rw [exec_sidec_of_le hplen, recordOfBits_portBytes] at h
  cases h
  simp only [State.setStatus_si, State.setSi_si, unpackSI]
  refine ⟨?_, ?_, ?_, ?_, ?_, ?_, ?_, ?_, ?_⟩ <;> exact toNat_extractLsb'_eq_bitSlice (by rfl) wdata

/-- Settles O33: packing and the nine slices are inverse to each other, both ways. -/
theorem streaminfoRoundTrip : Obligations.StreaminfoRoundTrip := by
  refine ⟨fun r s => ?_, fun plen wdata s t hplen h => ?_⟩
  · have hword : BitVec.ofNat 272 (packedRecord r) = packSI r := by
      rw [← toNat_packSI, BitVec.ofNat_toNat, BitVec.setWidth_eq]
    calc exec (.si272 r) s
      _ = execSi272 r s := rfl
      _ = _ := by rw [execSi272_eq, recordOfBits_portBytes, Laws.unpackSI_packSI, hword]; rfl
  · rw [exec_sidec_of_le hplen] at h
    cases h
    rw [State.setStatus_si, State.setSi_si, recordOfBits_portBytes, ← toNat_packSI, packSI_unpackSI]

/-! ### Fields by byte arithmetic -/

/-- The bits inside one byte of the payload. -/
theorem bitField_in_portByte (wdata : WData) {i r n l : Nat} (hi : i < 34) (h : r + n + l = 8) :
    bitField (portBytes wdata 34) (8 * i + r) n = portByte wdata i / 2 ^ l % 2 ^ n := by
  rw [bitField_eq_div_mod _ (8 * i) r n l, h, bitField_byte, toNat_getD_portBytes wdata hi]

/-- The low bits of one byte of the payload. -/
theorem bitField_low_of_portByte (wdata : WData) {i r n : Nat} (hi : i < 34) (h : r + n = 8) :
    bitField (portBytes wdata 34) (8 * i + r) n = portByte wdata i % 2 ^ n := by
  rw [bitField_in_portByte wdata hi (l := 0) h, pow_zero, Nat.div_one]

/-- The four high bits of one byte of the payload. -/
theorem bitField_high_nibble (wdata : WData) {i : Nat} (hi : i < 34) :
    bitField (portBytes wdata 34) (8 * i) 4 = portByte wdata i / 16 := by
  rw [bitField_byte_high _ i (by decide), toNat_getD_portBytes wdata hi]
  rfl

/-- The bits from a byte boundary on are a byte and the bits after it. -/
theorem bitField_byte_add (wdata : WData) {i : Nat} (hi : i < 34) (n : Nat) :
    bitField (portBytes wdata 34) (8 * i) (8 + n) =
      portByte wdata i * 2 ^ n + bitField (portBytes wdata 34) (8 * (i + 1)) n := by
  rw [bitField_add, bitField_byte, toNat_getD_portBytes wdata hi, Nat.mul_succ]

theorem bitField_two_bytes (wdata : WData) {i : Nat} (hi : i + 1 < 34) :
    bitField (portBytes wdata 34) (8 * i) 16 = portByte wdata i * 2 ^ 8 + portByte wdata (i + 1) := by
  rw [bitField_byte_add wdata (by omega) 8, bitField_byte, toNat_getD_portBytes wdata hi]

theorem bitField_three_bytes (wdata : WData) {i : Nat} (hi : i + 2 < 34) :
    bitField (portBytes wdata 34) (8 * i) 24 =
      portByte wdata i * 2 ^ 16 + portByte wdata (i + 1) * 2 ^ 8 + portByte wdata (i + 2) := by
  rw [bitField_byte_add wdata (by omega) 16, bitField_two_bytes wdata hi, ← Nat.add_assoc]

theorem bitField_four_bytes (wdata : WData) {i : Nat} (hi : i + 3 < 34) :
    bitField (portBytes wdata 34) (8 * i) 32 = portByte wdata i * 2 ^ 24 + portByte wdata (i + 1) * 2 ^ 16 +
      portByte wdata (i + 2) * 2 ^ 8 + portByte wdata (i + 3) := by
  rw [bitField_byte_add wdata (by omega) 24, bitField_three_bytes wdata hi, ← Nat.add_assoc,
    ← Nat.add_assoc]

/-- Bits 80..99: two bytes and the high half of the next. -/
theorem bitField_sampleRate (wdata : WData) : bitField (portBytes wdata 34) 80 20 =
    portByte wdata 10 * 2 ^ 12 + portByte wdata 11 * 2 ^ 4 + portByte wdata 12 / 16 := by
  have hbytes := bitField_two_bytes wdata (i := 10) (by decide)
  have hhalf := bitField_high_nibble wdata (i := 12) (by decide)
  have hjoin := bitField_add (portBytes wdata 34) 80 16 4
  rw [hjoin, hbytes, hhalf]
  ring

/-- Bits 103..107: the lowest bit of byte 12 and the high half of byte 13. -/
theorem bitField_bitsPerSample (wdata : WData) :
    bitField (portBytes wdata 34) 103 5 = portByte wdata 12 % 2 * 16 + portByte wdata 13 / 16 := by
  have hbit := bitField_low_of_portByte wdata (i := 12) (r := 7) (n := 1) (by decide) rfl
  have hhalf := bitField_high_nibble wdata (i := 13) (by decide)
  have hjoin := bitField_add (portBytes wdata 34) 103 1 4
  rw [hjoin, hbit, hhalf]
  rfl

/-- Bits 108..143: the low half of byte 13 and four bytes. -/
theorem bitField_totalSampleCount (wdata : WData) : bitField (portBytes wdata 34) 108 36 =
    portByte wdata 13 % 16 * 2 ^ 32 + portByte wdata 14 * 2 ^ 24 + portByte wdata 15 * 2 ^ 16 +
      portByte wdata 16 * 2 ^ 8 + portByte wdata 17 := by
  have hhalf := bitField_low_of_portByte wdata (i := 13) (r := 4) (n := 4) (by decide) rfl
  have hbytes := bitField_four_bytes wdata (i := 14) (by decide)
  have hjoin := bitField_add (portBytes wdata 34) 108 4 32
  rw [hjoin, hhalf, hbytes, ← Nat.add_assoc, ← Nat.add_assoc, ← Nat.add_assoc]
  rfl

/-- Bits 144..271: the last sixteen bytes. -/
theorem bitField_md5Checksum (wdata : WData) :
    bitField (portBytes wdata 34) 144 128 = bigEndian ((portBytes wdata 34).drop 18) := by
  have hbytes := bitField_bytes (portBytes wdata 34) 18 16 (by simp)
  rwa [List.take_of_length_le (by simp)] at hbytes

/-- Settles O30: each field is a sum of whole bytes and of parts of a byte, joined most significant first (R77). -/
theorem sidecCompletesByByteArithmetic : Obligations.SidecCompletesByByteArithmetic := by
  intro plen wdata s hplen
  have field {k n v : Nat} (h : bitField (portBytes wdata 34) k n = v) :
      (BitVec.ofNat n (bitField (portBytes wdata 34) k n)).toNat = v :=
    (toNat_ofNat_bitField le_rfl _ _).trans h
  exact ⟨_, exec_sidec_of_le hplen wdata s, field (bitField_two_bytes wdata (i := 0) (by decide)),
    field (bitField_two_bytes wdata (i := 2) (by decide)), field (bitField_three_bytes wdata (i := 4) (by decide)),
    field (bitField_three_bytes wdata (i := 7) (by decide)), field (bitField_sampleRate wdata),
    field (bitField_in_portByte wdata (i := 12) (r := 4) (n := 3) (l := 1) (by decide) rfl),
    field (bitField_bitsPerSample wdata), field (bitField_totalSampleCount wdata), field (bitField_md5Checksum wdata),
    Memory.bytes_ofBytes _, rfl, rfl, rfl, rfl, rfl, rfl, rfl, rfl, rfl, rfl, rfl⟩

/-! ### The cursor and SIDEC -/

/-- Settles O34: SIDEC leaves the cursor at the end of its bytes, where no bit remains. -/
theorem readAfterSidecRunsOut : Obligations.ReadAfterSidecRunsOut := by
  intro plen n wdata s t hplen h1 h64 h
  rw [exec_sidec_of_le hplen] at h
  cases h
  have hrem := BitCursor.remaining_at (Memory.ofBytes (portBytes wdata 34)) 272 le_rfl
  exact exec_read_of_remaining_lt h1 h64 (hrem.trans_lt h1)

/-- Settles O35: the ten READs return the fields SIDEC decodes, the checksum in two halves. -/
theorem cursorAgreesWithSidec : Obligations.CursorAgreesWithSidec := by
  intro wdata s t a ht ha
  rw [exec_sidec_of_le (by decide)] at ht
  rw [exec_load_over (by decide)] at ha
  cases ht
  have hcursor : a.bc = .over (portBytes wdata 34) 0 := by
    cases ha
    rfl
  have hbytes : a.bytes = portBytes wdata 34 := by rw [State.bytes, hcursor, Memory.bytes_ofBytes]
  obtain ⟨u, hread, hend⟩ := readValues_of_inv (s := a)
    (ns := [16#24, 16#24, 24#24, 24#24, 20#24, 3#24, 5#24, 36#24, 64#24, 64#24])
    (hcursor ▸ BitCursor.over_inv (by simp) (Nat.zero_le _)) (by simp)
    (by rw [hcursor, BitCursor.remaining_over (by simp) (Nat.zero_le _)]; simp)
  refine ⟨bitField (portBytes wdata 34) 144 64, bitField (portBytes wdata 34) 208 64, u, ?_, ?_, hread.trans ?_⟩
  · exact (toNat_ofNat_bitField le_rfl _ _).trans (bitField_add _ 144 64 64)
  · simp [hend, hcursor]
  · rw [hbytes, hcursor]
    simp only [State.setStatus_si, State.setSi_si, recordOfBits, toNat_ofNat_bitField, le_rfl]
    rfl

end Sys2Proof.Machine
end

section
/-!
PROOFS. The block at its ports (R85, R215, R216, R220, R222): one equation for each kind of clock edge, a command from
its accepting to its completing edge, and the statements about clock edges.
-/

namespace Sys2Proof.Machine

/-! ### The kinds of clock edge -/

theorem clockEdge_reset {i : PortIn} (hrst : i.rst = true) (s : State) : clockEdge i s = .next (applyReset s) :=
  if_pos hrst

theorem clockEdge_idle {i : PortIn} {s : State} (hrst : i.rst = false) (hidle : s.inFlight = none) :
    clockEdge i s =
      .next (if i.cmdValid then s.setInFlight (some ⟨i.cmd, i.wdata, Config.latency i.cmd i.wdata⟩) else s) := by
  cases hvalid : i.cmdValid <;> simp [clockEdge, hrst, hidle, hvalid]

theorem clockEdge_complete {i : PortIn} {s : State} {f : Flight} (hrst : i.rst = false) (hbusy : s.inFlight = some f)
    (hlast : f.remaining ≤ 1) : clockEdge i s = completeFlight f s := by
  simp [clockEdge, hrst, hbusy, hlast]

theorem clockEdge_countdown {i : PortIn} {s : State} {f : Flight} (hrst : i.rst = false) (hbusy : s.inFlight = some f)
    (hmore : 1 < f.remaining) :
    clockEdge i s = .next (s.setInFlight (some { f with remaining := f.remaining - 1 })) := by
  simp [clockEdge, hrst, hbusy, hmore.not_ge]

theorem rspAfterEdge_idle {s : State} (hidle : s.inFlight = none) (i : PortIn) : rspAfterEdge i s = false := by
  simp [rspAfterEdge, hidle]

theorem rspAfterEdge_busy {i : PortIn} {s : State} {f : Flight} (hrst : i.rst = false) (hbusy : s.inFlight = some f) :
    rspAfterEdge i s = decide (f.remaining ≤ 1) := by
  simp [rspAfterEdge, hrst, hbusy]

/-- Settles O5: each kind of edge answers, and keeps the cursor's and the flight's part of the invariant. -/
theorem clockEdgeKeepsCursorInvariant : Obligations.ClockEdgeKeepsCursorInvariant := by
  intro i s hinv
  obtain ⟨hcursor, hflight⟩ := hinv
  cases hrst : i.rst with
  | true => exact ⟨_, clockEdge_reset hrst s, applyReset_inv s⟩
  | false =>
    cases hf : s.inFlight with
    | none =>
      refine ⟨_, clockEdge_idle hrst hf, ?_⟩
      split_ifs
      · exact ⟨hcursor, decide_eq_true (Nat.succ_pos (Config.latencyBeyondFirst i.cmd i.wdata))⟩
      · exact ⟨hcursor, hflight⟩
    | some f =>
      obtain hmore | hlast := Nat.lt_or_ge 1 f.remaining
      · exact ⟨_, clockEdge_countdown hrst hf hmore, hcursor, decide_eq_true (Nat.le_sub_one_of_lt hmore)⟩
      · obtain ⟨t, ht⟩ := completeFlight_answers hcursor f
        exact ⟨t, (clockEdge_complete hrst hf hlast).trans ht, completeFlight_inv ⟨hcursor, hflight⟩ ht⟩

/-- Settles O52: a busy block's edge reads its own flight alone. -/
theorem busyBlockIgnoresItsInputs : Obligations.BusyBlockIgnoresItsInputs := by
  intro i j s hbusy hi hj
  obtain ⟨f, hf⟩ := Option.isSome_iff_exists.mp hbusy
  obtain hmore | hlast := Nat.lt_or_ge 1 f.remaining
  · rw [clockEdge_countdown hi hf hmore, clockEdge_countdown hj hf hmore]
  · rw [clockEdge_complete hi hf hlast, clockEdge_complete hj hf hlast]

/-- Settles O53, by the reset edge. -/
theorem resetEdgeAbandonsTheCommand : Obligations.ResetEdgeAbandonsTheCommand := by
  intro i s hrst
  exact ⟨clockEdge_reset hrst s, by simp [rspAfterEdge, hrst]⟩

/-- Settles O54: an edge that is neither a reset nor completing writes nothing but `busy`. -/
theorem outputsChangeOnlyAtCompletion : Obligations.OutputsChangeOnlyAtCompletion := by
  intro i s t hrst hrsp h
  have busy_only : ∃ f, t = s.setInFlight f := by
    cases hf : s.inFlight with
    | none =>
      rw [clockEdge_idle hrst hf] at h
      split_ifs at h
      · cases h
        exact ⟨_, rfl⟩
      · cases h
        exact ⟨none, (State.setInFlight_same s hf).symm⟩
    | some f =>
      rw [rspAfterEdge_busy hrst hf, decide_eq_false_iff_not, Nat.not_le] at hrsp
      rw [clockEdge_countdown hrst hf hrsp] at h
      cases h
      exact ⟨_, rfl⟩
  obtain ⟨f, rfl⟩ := busy_only
  rfl

/-! ### From the accepting to the completing edge -/

/-- An idle block that accepts a command and then sees fewer than LATENCY edges with rst = 0 has it in flight (R85). -/
theorem clockEdges_accepted {s : State} {cmd : CmdWord} {wdata : WData} {later : List PortIn}
    (hidle : s.inFlight = none) (hlater : later.length < Config.latency cmd wdata) (hrst : ∀ i ∈ later, i.rst = false) :
    clockEdges (⟨false, true, cmd, wdata⟩ :: later) s =
      .next (s.setInFlight (some ⟨cmd, wdata, Config.latency cmd wdata - later.length⟩)) := by
  rw [clockEdges, clockEdge_idle rfl hidle, if_pos rfl, andThen_next, clockEdges_countdown _ s later hlater hrst]

/-- Settles O51: the flight counts down, and the next edge is completing when one edge is left. -/
theorem clockedCommandIsAtomic : Obligations.ClockedCommandIsAtomic := by
  intro s cmd wdata later hidle hlater hrst
  refine ⟨_, _, clockEdges_accepted hidle hlater hrst, rfl, rfl, rfl, rfl, rspAfterEdge_idle hidle _,
    fun next hnext => ?_⟩
  rw [rspAfterEdge_busy hnext rfl]
  exact decide_eq_decide.mpr (by simp only; omega)

theorem runRequest_host_side {r : Request} {s t : State} (h : runRequest r s = .next t) :
    t.inFlight = s.inFlight ∧ t.hostQueue = s.hostQueue := by
  obtain ⟨i, -, hexec⟩ | rfl := runRequest_cases h
  · exact (exec_effect hexec).host_side
  · exact ⟨rfl, rfl⟩

/-- An instruction at states that agree in all but the host's queue ends in states that agree in all but it. -/
theorem exec_setHostQueue {i : Instr} {s t u : State} {q : List HostInput} (h : exec i s = .next t)
    (h' : exec i (s.setHostQueue q) = .next u) : t = u.setHostQueue s.hostQueue := by
  obtain ⟨hbc, hstatus, hrd, hrdV, hhdr, hhdrV, hsi, hsiV, hhostRead128⟩ :=
    commandsReadOnlyTheCursor i s (s.setHostQueue q) t u rfl h h'
  obtain ⟨hinFlight, hqueue⟩ := (exec_effect h).host_side
  obtain ⟨hinFlight', -⟩ := (exec_effect h').host_side
  have same {α : Type} {x y a : α} (hxy : x = y ∨ (x = a ∧ y = a)) : x = y :=
    hxy.elim id fun ⟨hx, hy⟩ => hx.trans hy.symm
  cases t
  cases u
  rw [State.setHostQueue, State.mk.injEq]
  exact ⟨hbc, same hrd, same hrdV, same hhdr, same hhdrV, same hsi, same hsiV, hstatus,
    hinFlight.trans hinFlight'.symm, hqueue, same hhostRead128⟩

theorem runRequest_setHostQueue {r : Request} {s t u : State} {q : List HostInput} (h : runRequest r s = .next t)
    (h' : runRequest r (s.setHostQueue q) = .next u) : t = u.setHostQueue s.hostQueue := by
  cases hdecode : decode r with
  | ok i =>
    rw [runRequest_ok hdecode] at h h'
    exact exec_setHostQueue h h'
  | error e =>
    cases e
    rw [runRequest_of_decode_error hdecode] at h h'
    cases h
    cases h'
    rfl

/-- Settles O50: the last of the LATENCY edges completes the flight, which runs the request the step runs. -/
theorem clockedCommandMatchesStep : Obligations.ClockedCommandMatchesStep := by
  intro s cmd wdata later hinv hidle hlater hrst
  obtain ⟨hcursor, -⟩ := hinv
  have upToLast {before : List PortIn} {last : PortIn} (hsplit : later = before ++ [last]) :
      last.rst = false ∧ clockEdges (⟨false, true, cmd, wdata⟩ :: before) s =
        .next (s.setInFlight (some ⟨cmd, wdata, 1⟩)) := by
    subst hsplit
    rw [List.length_append, List.length_singleton] at hlater
    rw [List.forall_mem_append, List.forall_mem_singleton] at hrst
    obtain ⟨hbefore, hlast⟩ := hrst
    rw [clockEdges_accepted hidle (by omega) hbefore, ← hlater, Nat.add_sub_cancel_left]
    exact ⟨hlast, rfl⟩
  obtain ⟨before, last, hsplit⟩ : ∃ before last, later = before ++ [last] := by
    obtain rfl | hsplit := later.eq_nil_or_concat'
    · exact absurd hlater (Nat.succ_ne_zero _).symm
    · exact hsplit
  obtain ⟨hlast, hbefore⟩ := upToLast hsplit
  obtain ⟨t, ht⟩ := runRequest_answers hcursor (.command cmd wdata)
  obtain ⟨u, hu⟩ := runRequest_answers (s := s.setHostQueue []) hcursor (.command cmd wdata)
  have hedges : clockEdges (⟨false, true, cmd, wdata⟩ :: later) s = .next t := by
    have hrun : completeFlight ⟨cmd, wdata, 1⟩ (s.setInFlight (some ⟨cmd, wdata, 1⟩)) = .next t := by
      rw [← ht, ← State.setInFlight_same s hidle]
      rfl
    rw [hsplit, ← List.cons_append, clockEdges_append, hbefore, andThen_next, clockEdges,
      clockEdge_complete hlast rfl le_rfl, hrun]
    rfl
  obtain ⟨hinFlight, -⟩ := runRequest_host_side ht
  have hdone : t.inFlight = none := hinFlight.trans hidle
  refine ⟨t, hedges, hdone, u, (step_of_idle_request (rest := []) ?_ rfl).trans hu, runRequest_setHostQueue ht hu,
    fun before last hsplit => ?_, rspAfterEdge_idle hdone⟩
  · exact hidle
  · obtain ⟨hlast, hbefore⟩ := upToLast hsplit
    exact ⟨_, hbefore, (rspAfterEdge_busy hlast rfl).trans rfl⟩

end Sys2Proof.Machine
end

section
/-!
PROOFS. A step of the host of the source's system (R160 to R168): how its reads end, all a step can lead to as an
inductive relation, that a step answers, and runs of steps.
-/

namespace Sys2Proof.Machine

/-! ### Reads of the byte source -/

/-- The error a read that finds too few bytes ends the parse with, `short` at the source's end. -/
def SourceRead.error (short : HostError) : SourceRead → Option HostError
  | .got _ _ => none
  | .short _ => some short
  | .ioFault => some .ioFault

theorem SourceRead.error_eq_some {read : SourceRead} {short e : HostError} (h : read.error short = some e) :
    (e = short ∧ ∃ found, read = .short found) ∨ (e = .ioFault ∧ read = .ioFault) := by
  cases read with
  | got found rest => cases h
  | short found =>
    cases h
    exact .inl ⟨rfl, found, rfl⟩
  | ioFault =>
    cases h
    exact .inr ⟨rfl, rfl⟩

theorem ByteSource.readExact_short {src : ByteSource} {n : Nat} {found : List Byte}
    (h : src.readExact n = .short found) : src.bytes.length < n ∧ src.ending = .eof := by
  unfold ByteSource.readExact at h
  split at h
  · cases h
  · next hlt =>
    split at h
    · next heof => exact ⟨Nat.not_le.mp hlt, heof⟩
    · cases h
    · cases h

/-- No read of an endless source ends the parse (R227). -/
theorem ByteSource.error_readExact_ne_some {src : ByteSource} (h : src.endless = true) (n : Nat)
    (short e : HostError) : (src.readExact n).error short ≠ some e := by
  obtain ⟨found, rest, hread, -⟩ := ByteSource.readExact_endless h n
  rw [hread]
  nofun

theorem ByteSource.readExact_got_endless {src rest : ByteSource} {n : Nat} {found : List Byte}
    (h : src.readExact n = .got found rest) : rest.endless = src.endless := by
  obtain ⟨-, -, hending, -⟩ := ByteSource.readExact_got h
  rw [ByteSource.endless, hending, ByteSource.endless]

/-- A read of a finite source uses up as many of its bytes as it finds. -/
theorem ByteSource.length_readExact_got {src rest : ByteSource} {n : Nat} {found : List Byte}
    (hfinite : src.endless = false) (h : src.readExact n = .got found rest) :
    rest.bytes.length + n = src.bytes.length := by
  unfold ByteSource.readExact at h
  split at h
  · next hle =>
    cases h
    rw [List.length_drop]
    omega
  · split at h
    · cases h
    · cases h
    · next hrepeats => simp [ByteSource.endless, hrepeats] at hfinite

theorem ByteSource.readExact_append (a b : List Byte) (ending : SourceEnd) {n : Nat} (hn : a.length = n) :
    (⟨a ++ b, ending⟩ : ByteSource).readExact n = .got a ⟨b, ending⟩ := by
  subst hn
  simp [ByteSource.readExact]

/-! ### All a step of the host can be -/

/-- What a step of the host can lead to while its block is idle: one constructor for each way the magic check or a turn
of the loop can go. -/
inductive HostStep (h : ParseSystem) : ParseSystem → Prop
  | ended (hended : h.ended = true) : HostStep h h
  | magic {rest : ByteSource} (hphase : h.phase = .validating)
    (hread : h.source.readExact 4 = .got magicSignature rest) : HostStep h { h with source := rest, phase := .running }
  | magicShort {e : HostError} (hphase : h.phase = .validating)
    (hread : (h.source.readExact 4).error .unexpectedEof = some e) : HostStep h (h.fail e)
  | badMagic {found : List Byte} (hphase : h.phase = .validating) : HostStep h (h.fail (.badMagic found))
  | headerShort {e : HostError} (hphase : h.phase = .running)
    (hread : (h.source.readExact 4).error .truncatedHeader = some e) : HostStep h (h.fail e)
  | badType {header : List Byte} {rest : ByteSource} (hphase : h.phase = .running)
    (hread : h.source.readExact 4 = .got header rest) (htype : 7 ≤ (h.withHeader header rest).block.hdr.type.toNat) :
    HostStep h ((h.withHeader header rest).fail (.unexpectedBlockType (h.withHeader header rest).block.hdr.type))
  | payloadShort {header : List Byte} {rest : ByteSource} {e : HostError} (hphase : h.phase = .running)
    (hread : h.source.readExact 4 = .got header rest)
    (hpayload : (rest.readExact (h.withHeader header rest).block.hdr.length.toNat).error .truncatedPayload = some e) :
    HostStep h ((h.withHeader header rest).fail e)
  | streaminfoShort {header payload : List Byte} {rest rest' : ByteSource} {b : State} (hphase : h.phase = .running)
    (hread : h.source.readExact 4 = .got header rest)
    (hpayload : rest.readExact (h.withHeader header rest).block.hdr.length.toNat = .got payload rest')
    (htype : (h.withHeader header rest).block.hdr.type = 0#7)
    (hlength : (h.withHeader header rest).block.hdr.length.toNat < 34)
    (hidle : b.inFlight = none) (hstatus : b.status = .insufficientData) :
    HostStep h (({ h.withHeader header rest with block := b, source := rest' } : ParseSystem).fail .insufficientData)
  | emit {header payload : List Byte} {rest rest' : ByteSource} {b : State} {record : Option Streaminfo}
    (hphase : h.phase = .running) (hread : h.source.readExact 4 = .got header rest)
    (hpayload : rest.readExact (h.withHeader header rest).block.hdr.length.toNat = .got payload rest')
    (hidle : b.inFlight = none) (hstatus : b.status = .ok) (hhdr : b.hdr = (h.withHeader header rest).block.hdr) :
    HostStep h (({ h.withHeader header rest with block := b, source := rest' } : ParseSystem).emit record)

/-- SIDEC, issued to an idle block (R175): it fails below 34 bytes, else it decodes wdata[0..33]. -/
theorem issueCommand_sidec {b : State} (hidle : b.inFlight = none) (plen : Arg) (wdata : WData) :
    ∃ c, issueCommand (commandWord 3#2 plen) wdata b = .next c ∧ c.inFlight = none ∧
      ((plen.toNat < 34 ∧ c.status = .insufficientData) ∨
        (34 ≤ plen.toNat ∧ c.status = .ok ∧ c.hdr = b.hdr ∧ c.si = recordOfBits (portBytes wdata 34))) := by
  have hissue : issueCommand (commandWord 3#2 plen) wdata b = exec (.sidec plen wdata) (b.setHostQueue []) := by
    calc issueCommand (commandWord 3#2 plen) wdata b
      _ = runRequest (.command (commandWord 3#2 plen) wdata) (b.setHostQueue []) := step_of_idle_request hidle rfl
      _ = _ := runRequest_ok (Laws.RoundTrip.sidec plen wdata) _
  obtain hshort | hle := Nat.lt_or_ge plen.toNat 34
  · exact ⟨_, hissue.trans (exec_sidec_of_short hshort wdata _), hidle, .inl ⟨hshort, rfl⟩⟩
  · exact ⟨_, hissue.trans (exec_sidec_of_le hle wdata _), hidle, .inr ⟨hle, rfl, rfl, rfl⟩⟩

/-- A Streaminfo payload that is read goes to SIDEC: below 34 bytes it fails, else the block is emitted with its record
(R166 to R168). -/
theorem ParseSystem.readPayload_streaminfo {g : ParseSystem} {payload : List Byte} {rest : ByteSource}
    (hidle : g.block.inFlight = none) (hread : g.source.readExact g.block.hdr.length.toNat = .got payload rest)
    (htype : g.block.hdr.type = 0#7) :
    ∃ b : State, b.inFlight = none ∧
      ((g.block.hdr.length.toNat < 34 ∧ b.status = .insufficientData ∧
        g.readPayload = .next (({ g with block := b, source := rest } : ParseSystem).fail .insufficientData)) ∨
      (34 ≤ g.block.hdr.length.toNat ∧ b.status = .ok ∧ b.hdr = g.block.hdr ∧
        b.si = recordOfBits (portBytes (wdataOfBytes (payload.take 34)) 34) ∧
        g.readPayload = .next (({ g with block := b, source := rest } : ParseSystem).emit (some b.si)))) := by
  obtain ⟨b, hissue, hidle, hcase⟩ :=
    issueCommand_sidec hidle g.block.hdr.length (wdataOfBytes (payload.take Config.siBytes))
  refine ⟨b, hidle, ?_⟩
  obtain ⟨hshort, hstatus⟩ | ⟨hle, hstatus, hhdr, hsi⟩ := hcase
  · exact .inl ⟨hshort, hstatus, by simp [ParseSystem.readPayload, hread, htype, hissue, hstatus, errorOfStatus]⟩
  · exact .inr ⟨hle, hstatus, hhdr, hsi,
      by simp [ParseSystem.readPayload, hread, htype, hissue, hstatus, errorOfStatus]⟩

/-- Any other payload that is read is discarded (R167). -/
theorem ParseSystem.readPayload_discarded {g : ParseSystem} {payload : List Byte} {rest : ByteSource}
    (hread : g.source.readExact g.block.hdr.length.toNat = .got payload rest) (htype : g.block.hdr.type ≠ 0#7) :
    g.readPayload = .next (({ g with source := rest } : ParseSystem).emit none) := by
  simp [ParseSystem.readPayload, hread, htype]

theorem ParseSystem.readPayload_of_error {g : ParseSystem} {e : HostError}
    (hread : (g.source.readExact g.block.hdr.length.toNat).error .truncatedPayload = some e) :
    g.readPayload = .next (g.fail e) := by
  obtain ⟨rfl, found, hshort⟩ | ⟨rfl, hfault⟩ := SourceRead.error_eq_some hread
  · simp [ParseSystem.readPayload, hshort]
  · simp [ParseSystem.readPayload, hfault]

theorem ParseSystem.iterate_of_error {h : ParseSystem} {e : HostError}
    (hread : (h.source.readExact 4).error .truncatedHeader = some e) : h.iterate = .next (h.fail e) := by
  obtain ⟨rfl, found, hshort⟩ | ⟨rfl, hfault⟩ := SourceRead.error_eq_some hread
  · simp [ParseSystem.iterate, Config.hdrBytes, hshort]
  · simp [ParseSystem.iterate, Config.hdrBytes, hfault]

theorem validateMagic_of_error {src : ByteSource} {e : HostError}
    (hread : (src.readExact 4).error .unexpectedEof = some e) : validateMagic src = .error e := by
  obtain ⟨rfl, found, hshort⟩ | ⟨rfl, hfault⟩ := SourceRead.error_eq_some hread
  · simp [validateMagic, hshort]
  · simp [validateMagic, hfault]

/-- A read finds its bytes or ends the parse. -/
theorem SourceRead.got_or_error (read : SourceRead) (short : HostError) :
    (∃ found rest, read = .got found rest) ∨ ∃ e, read.error short = some e := by
  cases read with
  | got found rest => exact .inl ⟨found, rest, rfl⟩
  | short found => exact .inr ⟨short, rfl⟩
  | ioFault => exact .inr ⟨.ioFault, rfl⟩

/-- A turn of the loop over an idle block answers (R164 to R168). -/
theorem ParseSystem.iterate_answers {h : ParseSystem} (hphase : h.phase = .running) (hidle : h.block.inFlight = none) :
    ∃ t, h.iterate = .next t ∧ HostStep h t := by
  obtain ⟨header, rest, hread⟩ | ⟨e, hread⟩ := (h.source.readExact 4).got_or_error .truncatedHeader
  · rw [ParseSystem.iterate_of_readExact_got hidle hread]
    split_ifs with h7
    · exact ⟨_, rfl, .badType hphase hread h7⟩
    · obtain ⟨payload, rest', hpayload⟩ | ⟨e, hpayload⟩ :=
        (rest.readExact (h.withHeader header rest).block.hdr.length.toNat).got_or_error .truncatedPayload
      · by_cases htype : (h.withHeader header rest).block.hdr.type = 0#7
        · obtain ⟨b, hb, ⟨hlength, hstatus, hnext⟩ | ⟨-, hstatus, hhdr, -, hnext⟩⟩ :=
            ParseSystem.readPayload_streaminfo (g := h.withHeader header rest) hidle hpayload htype
          · exact ⟨_, hnext, .streaminfoShort hphase hread hpayload htype hlength hb hstatus⟩
          · exact ⟨_, hnext, .emit hphase hread hpayload hb hstatus hhdr⟩
        · exact ⟨_, ParseSystem.readPayload_discarded hpayload htype, .emit hphase hread hpayload hidle rfl rfl⟩
      · exact ⟨_, ParseSystem.readPayload_of_error hpayload, .payloadShort hphase hread hpayload⟩
  · exact ⟨_, ParseSystem.iterate_of_error hread, .headerShort hphase hread⟩

/-- A step of the host over an idle block answers. -/
theorem ParseSystem.step_answers {h : ParseSystem} (hidle : h.block.inFlight = none) :
    ∃ t, h.step = .next t ∧ HostStep h t := by
  cases hphase : h.phase with
  | validating =>
    obtain ⟨found, rest, hread⟩ | ⟨e, hread⟩ := (h.source.readExact 4).got_or_error .unexpectedEof
    · by_cases hsig : found = magicSignature
      · subst hsig
        exact ⟨_, ParseSystem.step_of_validateMagic_ok hphase (by simp [validateMagic, hread]), .magic hphase hread⟩
      · have hmagic : validateMagic h.source = .error (.badMagic found) := by simp [validateMagic, hread, hsig]
        exact ⟨_, ParseSystem.step_of_validateMagic_error hphase hmagic, .badMagic hphase⟩
    · exact ⟨_, ParseSystem.step_of_validateMagic_error hphase (validateMagic_of_error hread), .magicShort hphase hread⟩
  | running =>
    rw [ParseSystem.step_of_running hphase]
    exact ParseSystem.iterate_answers hphase hidle
  | done => exact ⟨h, by simp [ParseSystem.step, hphase], .ended (by simp [ParseSystem.ended, hphase])⟩
  | failed e => exact ⟨h, ParseSystem.step_of_failed hphase, .ended (by simp [ParseSystem.ended, hphase])⟩

theorem ParseSystem.hostStep_of_step {h t : ParseSystem} (hidle : h.block.inFlight = none) (ht : h.step = .next t) :
    HostStep h t := by
  obtain ⟨u, hu, hstep⟩ := ParseSystem.step_answers hidle
  rw [hu] at ht
  cases ht
  exact hstep

theorem HostStep.idle {h t : ParseSystem} (hstep : HostStep h t) (hidle : h.block.inFlight = none) :
    t.block.inFlight = none := by
  cases hstep with
  | streaminfoShort _ _ _ _ _ hb => exact hb
  | emit _ _ _ hb => exact hb
  | _ => exact hidle

/-! ### Runs -/

/-- What a step keeps, a run keeps. -/
theorem ParseSystem.run_keeps {P : ParseSystem → Prop} (hstep : ∀ h t : ParseSystem, P h → h.step = .next t → P t)
    {k : Nat} {h t : ParseSystem} (h0 : P h) (hrun : h.run k = .next t) : P t := by
  induction k generalizing h with
  | zero =>
    cases hrun
    exact h0
  | succ k ih =>
    obtain ⟨u, hu, hrun⟩ := andThen_eq_next hrun
    exact ih (hstep h u h0 hu) hrun

theorem ParseSystem.run_succ_of_step {h u : ParseSystem} (hu : h.step = .next u) (k : Nat) :
    h.run (k + 1) = u.run k := by
  rw [ParseSystem.run, hu, andThen_next]

theorem ParseSystem.emit_phase_ne_validating (h : ParseSystem) (record : Option Streaminfo) :
    (h.emit record).phase ≠ .validating := by
  cases hlast : h.block.hdr.isLast <;> simp [ParseSystem.emit, hlast]

theorem ParseSystem.emit_phase_of_not_ended {h : ParseSystem} {record : Option Streaminfo}
    (hended : (h.emit record).ended ≠ true) : (h.emit record).phase = .running := by
  cases hlast : h.block.hdr.isLast <;> simp_all [ParseSystem.emit, ParseSystem.ended]

end Sys2Proof.Machine
end

section
/-!
PROOFS. What every step of the host keeps (R126, R173, R186, R227): the statuses and errors it can meet, that no read of
an endless source ends the parse, and that the source is released when the parse ends.
-/

namespace Sys2Proof.Machine

/-! ### The source's system meets InsufficientData alone -/

/-- What holds along a parse of `src`: the block is idle with one of two statuses, the magic check still has the whole
source, and the phase is none of the three errors but UnexpectedEof of a source too short for the magic (R126, R186). -/
def OnlyInsufficientData (src : ByteSource) (h : ParseSystem) : Prop :=
  h.block.inFlight = none ∧ (h.block.status = .ok ∨ h.block.status = .insufficientData) ∧
    (h.phase = .validating → h.source = src) ∧
    h.phase ≠ .failed .outOfBits ∧ h.phase ≠ .failed .illegalCommand ∧
    (h.phase = .failed .unexpectedEof → src.bytes.length < 4 ∧ src.ending = .eof)

theorem onlyInsufficientData_step {src : ByteSource} {h t : ParseSystem} (hinv : OnlyInsufficientData src h)
    (ht : h.step = .next t) : OnlyInsufficientData src t := by
  have hall := hinv
  obtain ⟨hidle, hstatus, hsource, -⟩ := hinv
  have hstep := ParseSystem.hostStep_of_step hidle ht
  have hidle' := hstep.idle hidle
  cases hstep with
  | ended => exact hall
  | magic => exact ⟨hidle', hstatus, nofun, nofun, nofun, nofun⟩
  | magicShort hphase hread =>
    obtain ⟨rfl, found, hshort⟩ | ⟨rfl, -⟩ := SourceRead.error_eq_some hread
    · rw [hsource hphase] at hshort
      exact ⟨hidle', hstatus, nofun, nofun, nofun, fun _ => ByteSource.readExact_short hshort⟩
    · exact ⟨hidle', hstatus, nofun, nofun, nofun, nofun⟩
  | badMagic => exact ⟨hidle', hstatus, nofun, nofun, nofun, nofun⟩
  | headerShort _ hread =>
    obtain ⟨rfl, -⟩ | ⟨rfl, -⟩ := SourceRead.error_eq_some hread <;>
      exact ⟨hidle', hstatus, nofun, nofun, nofun, nofun⟩
  | badType => exact ⟨hidle', .inl rfl, nofun, nofun, nofun, nofun⟩
  | payloadShort _ _ hpayload =>
    obtain ⟨rfl, -⟩ | ⟨rfl, -⟩ := SourceRead.error_eq_some hpayload <;>
      exact ⟨hidle', .inl rfl, nofun, nofun, nofun, nofun⟩
  | streaminfoShort _ _ _ _ _ _ hb => exact ⟨hidle', .inr hb, nofun, nofun, nofun, nofun⟩
  | emit _ _ _ _ hb =>
    exact ⟨hidle', .inl hb, fun hphase => absurd hphase (ParseSystem.emit_phase_ne_validating _ _),
      ParseSystem.emit_phase_ne_failed _ _ _, ParseSystem.emit_phase_ne_failed _ _ _,
      fun hphase => absurd hphase (ParseSystem.emit_phase_ne_failed _ _ _)⟩

/-- Settles O58: the parse starts with `OnlyInsufficientData` and every step keeps it. -/
theorem hostMeetsOnlyInsufficientData : Obligations.HostMeetsOnlyInsufficientData := by
  intro src k t hrun
  have hstart : OnlyInsufficientData src (ParseSystem.start src) := ⟨rfl, .inl rfl, fun _ => rfl, nofun, nofun, nofun⟩
  obtain ⟨-, hstatus, -, hbits, hillegal, heof⟩ :=
    ParseSystem.run_keeps (fun _ _ => onlyInsufficientData_step) hstart hrun
  exact ⟨hstatus, hbits, hillegal, heof⟩

/-! ### Reads of an endless source -/

/-- What holds along a parse of an endless source: it stays endless, so no read ends the parse (R227). -/
def NoReadFails (h : ParseSystem) : Prop :=
  h.block.inFlight = none ∧ h.source.endless = true ∧ h.phase ≠ .failed .unexpectedEof ∧
    h.phase ≠ .failed .truncatedHeader ∧ h.phase ≠ .failed .truncatedPayload ∧ h.phase ≠ .failed .ioFault

theorem noReadFails_step {h t : ParseSystem} (hinv : NoReadFails h) (ht : h.step = .next t) : NoReadFails t := by
  have hall := hinv
  obtain ⟨hidle, hendless, -⟩ := hinv
  have hstep := ParseSystem.hostStep_of_step hidle ht
  have hidle' := hstep.idle hidle
  have step_on {src rest : ByteSource} {n : Nat} {found : List Byte} (hsrc : src.endless = true)
      (hread : src.readExact n = .got found rest) : rest.endless = true :=
    (ByteSource.readExact_got_endless hread).trans hsrc
  cases hstep with
  | ended => exact hall
  | magic _ hread => exact ⟨hidle', step_on hendless hread, nofun, nofun, nofun, nofun⟩
  | magicShort _ herror => exact absurd herror (ByteSource.error_readExact_ne_some hendless _ _ _)
  | badMagic => exact ⟨hidle', hendless, nofun, nofun, nofun, nofun⟩
  | headerShort _ herror => exact absurd herror (ByteSource.error_readExact_ne_some hendless _ _ _)
  | badType _ hread => exact ⟨hidle', step_on hendless hread, nofun, nofun, nofun, nofun⟩
  | payloadShort _ hread herror =>
    exact absurd herror (ByteSource.error_readExact_ne_some (step_on hendless hread) _ _ _)
  | streaminfoShort _ hread hpayload =>
    exact ⟨hidle', step_on (step_on hendless hread) hpayload, nofun, nofun, nofun, nofun⟩
  | emit _ hread hpayload =>
    exact ⟨hidle', step_on (step_on hendless hread) hpayload, ParseSystem.emit_phase_ne_failed _ _ _,
      ParseSystem.emit_phase_ne_failed _ _ _, ParseSystem.emit_phase_ne_failed _ _ _,
      ParseSystem.emit_phase_ne_failed _ _ _⟩

/-! ### The parse ends with its source released -/

theorem ParseSystem.fail_released (h : ParseSystem) (e : HostError) : (h.fail e).sourceOpen = !(h.fail e).ended := rfl

theorem ParseSystem.emit_released (h : ParseSystem) (record : Option Streaminfo) :
    (h.emit record).sourceOpen = !(h.emit record).ended := by
  cases hlast : h.block.hdr.isLast <;> simp [ParseSystem.emit, ParseSystem.ended, hlast]

theorem ParseSystem.readPayload_released {h t : ParseSystem} (ht : h.readPayload = .next t) :
    t.sourceOpen = !t.ended := by
  unfold ParseSystem.readPayload at ht
  split at ht
  · cases ht
    exact ParseSystem.fail_released _ _
  · cases ht
    exact ParseSystem.fail_released _ _
  · split at ht
    · obtain ⟨b, -, ht⟩ := andThen_eq_next ht
      split at ht
      · cases ht
        exact ParseSystem.fail_released _ _
      · cases ht
        exact ParseSystem.emit_released _ _
    · cases ht
      exact ParseSystem.emit_released _ _

theorem ParseSystem.iterate_released {h t : ParseSystem} (ht : h.iterate = .next t) : t.sourceOpen = !t.ended := by
  unfold ParseSystem.iterate at ht
  split at ht
  · cases ht
    exact ParseSystem.fail_released _ _
  · cases ht
    exact ParseSystem.fail_released _ _
  · obtain ⟨b, -, ht⟩ := andThen_eq_next ht
    split at ht
    · cases ht
      exact ParseSystem.fail_released _ _
    · split at ht
      · cases ht
        exact ParseSystem.fail_released _ _
      · exact ParseSystem.readPayload_released ht

/-- Settles O59: a step fails, which releases the source, emits, which releases it after the last block, or goes on with
it as it was. -/
theorem sourceReleasedOnEveryExit : Obligations.SourceReleasedOnEveryExit := by
  intro h t hopen ht
  cases hphase : h.phase with
  | validating =>
    cases hmagic : validateMagic h.source with
    | ok rest =>
      rw [ParseSystem.step_of_validateMagic_ok hphase hmagic] at ht
      cases ht
      simpa [ParseSystem.ended, hphase] using hopen
    | error e =>
      rw [ParseSystem.step_of_validateMagic_error hphase hmagic] at ht
      cases ht
      exact ParseSystem.fail_released h e
  | running =>
    rw [ParseSystem.step_of_running hphase] at ht
    exact ParseSystem.iterate_released ht
  | done =>
    have hstay : h.step = .next h := by simp [ParseSystem.step, hphase]
    rw [hstay] at ht
    cases ht
    exact hopen
  | failed e =>
    rw [ParseSystem.step_of_failed hphase] at ht
    cases ht
    exact hopen

end Sys2Proof.Machine
end

section
/-!
PROOFS. How long a parse runs (R227): it ends on a finite source, and it goes on for ever on an endless chain of one
block that is not the last.
-/

namespace Sys2Proof.Machine

/-! ### Finite sources -/

/-- From RUNNING on a finite source the loop ends: a turn that does not end has used up four bytes or more. -/
theorem ParseSystem.exists_run_ended {h : ParseSystem} (hphase : h.phase = .running) (hidle : h.block.inFlight = none)
    (hfinite : h.source.endless = false) :
    ∃ k t, k ≤ h.source.bytes.length + 1 ∧ h.run k = .next t ∧ t.ended = true := by
  induction hn : h.source.bytes.length using Nat.strong_induction_on generalizing h with
  | _ n ih =>
    obtain ⟨t, ht, hstep⟩ := ParseSystem.step_answers hidle
    have hidle' := hstep.idle hidle
    by_cases hended : t.ended = true
    · exact ⟨1, t, by omega, by rw [ParseSystem.run_succ_of_step ht]; rfl, hended⟩
    cases hstep with
    | @emit header payload rest rest' b record _ hread hpayload =>
      have hrest : rest.endless = false := (ByteSource.readExact_got_endless hread).trans hfinite
      have hrest' : rest'.endless = false := (ByteSource.readExact_got_endless hpayload).trans hrest
      have hlen := ByteSource.length_readExact_got hfinite hread
      have hlen' := ByteSource.length_readExact_got hrest hpayload
      obtain ⟨k, u, hk, hrun, hu⟩ :=
        ih rest'.bytes.length (by omega) (ParseSystem.emit_phase_of_not_ended hended) hidle' hrest' rfl
      exact ⟨k + 1, u, by omega, by rw [ParseSystem.run_succ_of_step ht, hrun], hu⟩
    | ended hstay => exact absurd hstay hended
    | magic hvalidating => simp [hphase] at hvalidating
    | _ => exact absurd rfl hended

/-! ### The header of a turn, field by field -/

theorem ParseSystem.hdr_withHeader (h : ParseSystem) (h0 h1 h2 h3 : Byte) (rest : ByteSource) :
    (h.withHeader [h0, h1, h2, h3] rest).block.hdr = headerRegsOf (h0 ++ h1 ++ h2 ++ h3) := by
  rw [← headerOperand_wdataOfBytes]
  rfl

theorem hdrIsLast_append {h0 : Byte} (hlt : h0.toNat < 128) (h1 h2 h3 : Byte) :
    hdrIsLast (h0 ++ h1 ++ h2 ++ h3) = false := by
  obtain ⟨hlast, -, -⟩ := hdr_fields (h0 ++ h1 ++ h2 ++ h3)
  rw [hlast, decide_eq_false_iff_not, bitSlice]
  simp only [toNat_append_eq_mul_add]
  omega

theorem toNat_hdrLength_append (h0 h1 h2 h3 : Byte) :
    (hdrLength (h0 ++ h1 ++ h2 ++ h3)).toNat = h1.toNat * 65536 + h2.toNat * 256 + h3.toNat := by
  simp only [hdrLength, BitVec.extractLsb'_toNat, Nat.shiftRight_eq_div_pow, toNat_append_eq_mul_add]
  omega

/-! ### An endless chain of one block -/

/-- After one unit of an endless repetition the same repetition is still to come. -/
theorem drop_take_repeatBytes {unit : List Byte} (hunit : 1 ≤ unit.length) (n : Nat) :
    ((repeatBytes unit (unit.length + n)).take (unit.length + n)).drop unit.length = (repeatBytes unit n).take n := by
  obtain ⟨m, hm⟩ : ∃ m, unit.length + n = m + 1 := ⟨unit.length - 1 + n, by omega⟩
  have hle : n ≤ m := by omega
  have hmul (k : Nat) : k ≤ k * unit.length := Nat.le_mul_of_pos_right k hunit
  have hsame : (repeatBytes unit m).take n = (repeatBytes unit n).take n :=
    take_repeatBytes (bytes := []) (by simpa using hle.trans (hmul m)) (by simpa using hmul n)
  rw [List.drop_take, Nat.add_sub_cancel_left, hm, repeatBytes, List.drop_left, hsame]

/-- Where the host stands between two blocks of an endless chain of `unit`. -/
structure AtUnit (unit : List Byte) (h : ParseSystem) : Prop where
  running : h.phase = .running
  idle : h.block.inFlight = none
  endless : h.source.endless = true
  upcoming : ∀ n, h.source.upcoming n = (repeatBytes unit n).take n

/-- One turn takes the host past one block that is not the last, of a type code below 7 and, for Streaminfo, of 34 bytes
or more (R164 to R168). -/
theorem AtUnit.step {h : ParseSystem} {h0 h1 h2 h3 : Byte} {payload : List Byte}
    (hat : AtUnit (h0 :: h1 :: h2 :: h3 :: payload) h) (htype : h0.toNat < 7)
    (hlength : h1.toNat * 65536 + h2.toNat * 256 + h3.toNat = payload.length)
    (hstreaminfo : h0.toNat = 0 → 34 ≤ payload.length) :
    ∃ t, h.step = .next t ∧ AtUnit (h0 :: h1 :: h2 :: h3 :: payload) t ∧ t.parsed.length = h.parsed.length + 1 := by
  obtain ⟨hrunning, hidle, hendless, hupcoming⟩ := hat
  obtain ⟨t, ht, hstep⟩ := ParseSystem.step_answers hidle
  have hidle' := hstep.idle hidle
  have hheader {header : List Byte} {rest : ByteSource} (hread : h.source.readExact 4 = .got header rest) :
      (h.withHeader header rest).block.hdr = headerRegsOf (h0 ++ h1 ++ h2 ++ h3) := by
    obtain ⟨rfl, -⟩ := ByteSource.readExact_got hread
    rw [hupcoming 4]
    exact h.hdr_withHeader h0 h1 h2 h3 rest
  have hcode : (headerRegsOf (h0 ++ h1 ++ h2 ++ h3)).type.toNat = h0.toNat :=
    (toNat_hdrType_append h0 h1 h2 h3).trans (Nat.mod_eq_of_lt (by omega))
  have hbytes : (headerRegsOf (h0 ++ h1 ++ h2 ++ h3)).length.toNat = payload.length :=
    (toNat_hdrLength_append h0 h1 h2 h3).trans hlength
  have hlast : (headerRegsOf (h0 ++ h1 ++ h2 ++ h3)).isLast = false := hdrIsLast_append (by omega) h1 h2 h3
  cases hstep with
  | ended hended => simp [ParseSystem.ended, hrunning] at hended
  | magic hphase => simp [hrunning] at hphase
  | magicShort hphase => simp [hrunning] at hphase
  | badMagic hphase => simp [hrunning] at hphase
  | headerShort _ herror => exact absurd herror (ByteSource.error_readExact_ne_some hendless _ _ _)
  | badType _ hread h7 =>
    rw [hheader hread, hcode] at h7
    omega
  | payloadShort _ hread herror =>
    have hrest := (ByteSource.readExact_got_endless hread).trans hendless
    exact absurd herror (ByteSource.error_readExact_ne_some hrest _ _ _)
  | streaminfoShort _ hread _ hzero hshort =>
    rw [hheader hread] at hzero hshort
    rw [hzero] at hcode
    have := hstreaminfo hcode.symm
    omega
  | @emit header payload' rest rest' b record _ hread hpayload _ _ hhdr =>
    rw [hheader hread] at hpayload hhdr
    rw [hbytes] at hpayload
    have hendless' : rest'.endless = true :=
      (ByteSource.readExact_got_endless hpayload).trans ((ByteSource.readExact_got_endless hread).trans hendless)
    obtain ⟨-, -, -, hrest⟩ := ByteSource.readExact_got hread
    obtain ⟨-, -, -, hrest'⟩ := ByteSource.readExact_got hpayload
    refine ⟨_, ht, ⟨?_, hidle', hendless', fun n => ?_⟩, List.length_append⟩
    · simp [ParseSystem.emit, hhdr, hlast]
    · have hunit := drop_take_repeatBytes (unit := h0 :: h1 :: h2 :: h3 :: payload) (by simp) n
      have hlength : 4 + payload.length = (h0 :: h1 :: h2 :: h3 :: payload).length := Nat.add_comm _ _
      rw [← hunit, ← hupcoming, ← hlength, Nat.add_assoc, ← List.drop_drop, ← hrest, ← hrest']
      rfl

theorem AtUnit.run {h : ParseSystem} {h0 h1 h2 h3 : Byte} {payload : List Byte}
    (hat : AtUnit (h0 :: h1 :: h2 :: h3 :: payload) h) (htype : h0.toNat < 7)
    (hlength : h1.toNat * 65536 + h2.toNat * 256 + h3.toNat = payload.length)
    (hstreaminfo : h0.toNat = 0 → 34 ≤ payload.length) (k : Nat) :
    ∃ t, h.run k = .next t ∧ AtUnit (h0 :: h1 :: h2 :: h3 :: payload) t ∧ t.parsed.length = h.parsed.length + k := by
  induction k generalizing h with
  | zero => exact ⟨h, rfl, hat, rfl⟩
  | succ k ih =>
    obtain ⟨u, hu, hat', hparsed⟩ := hat.step htype hlength hstreaminfo
    obtain ⟨t, ht, hat'', hparsed'⟩ := ih hat'
    exact ⟨t, by rw [ParseSystem.run_succ_of_step hu, ht], hat'', by omega⟩

/-- The magic check of a source that begins with the signature (R160). -/
theorem ParseSystem.step_start (bytes : List Byte) (ending : SourceEnd) :
    (ParseSystem.start ⟨magicSignature ++ bytes, ending⟩).step =
      .next ⟨State.reset, ⟨bytes, ending⟩, true, .running, []⟩ := by
  have hread := ByteSource.readExact_append magicSignature bytes ending (n := 4) rfl
  exact ParseSystem.step_of_validateMagic_ok rfl (by simp [validateMagic, ParseSystem.start, hread])

/-- Settles O57: a finite source is used up, an endless one keeps `NoReadFails`, and an endless chain of one block keeps
`AtUnit`. -/
theorem parseEndsOnFiniteSources : Obligations.ParseEndsOnFiniteSources := by
  refine ⟨fun src hfinite => ?_, fun src k t hendless hrun => ?_, fun code payload hcode hlen hstreaminfo k => ?_⟩
  · obtain ⟨t, ht, hstep⟩ := ParseSystem.step_answers (h := ParseSystem.start src) rfl
    have hidle := hstep.idle rfl
    by_cases hended : t.ended = true
    · exact ⟨1, t, by omega, by rw [ParseSystem.run_succ_of_step ht]; rfl, hended⟩
    cases hstep with
    | @magic rest _ hread =>
      have hlen := ByteSource.length_readExact_got hfinite hread
      obtain ⟨k, u, hk, hrun, hu⟩ := ParseSystem.exists_run_ended rfl hidle
        ((ByteSource.readExact_got_endless hread).trans hfinite)
      have hk : k ≤ rest.bytes.length + 1 := hk
      have hlen : rest.bytes.length + 4 = src.bytes.length := hlen
      exact ⟨k + 1, u, by omega, by rw [ParseSystem.run_succ_of_step ht, hrun], hu⟩
    | emit hphase => cases hphase
    | ended hstay => exact absurd hstay hended
    | _ => exact absurd rfl hended
  · have hstart : NoReadFails (ParseSystem.start src) := ⟨rfl, hendless, nofun, nofun, nofun, nofun⟩
    obtain ⟨-, -, hall⟩ := ParseSystem.run_keeps (fun _ _ => noReadFails_step) hstart hrun
    exact hall
  · cases k with
    | zero => exact ⟨_, rfl, rfl, rfl⟩
    | succ k =>
      have hat : AtUnit (BitVec.ofNat 8 code :: BitVec.ofNat 8 (payload.length / 65536) ::
          BitVec.ofNat 8 (payload.length / 256 % 256) :: BitVec.ofNat 8 (payload.length % 256) :: payload)
          ⟨State.reset, ⟨[], .repeats (nonFinalBlock code payload).1 (nonFinalBlock code payload).2⟩, true, .running,
            []⟩ :=
        ⟨rfl, rfl, rfl, fun _ => rfl⟩
      have hcode8 : (BitVec.ofNat 8 code).toNat = code := Nat.mod_eq_of_lt (by omega)
      obtain ⟨t, ht, hat', hparsed⟩ := hat.run (by omega) (by simp only [BitVec.toNat_ofNat]; omega)
        (by rwa [hcode8]) k
      have hstart := ParseSystem.step_start [] (.repeats (nonFinalBlock code payload).1 (nonFinalBlock code payload).2)
      exact ⟨t, (ParseSystem.run_succ_of_step hstart k).trans ht, by simp [ParseSystem.ended, hat'.running],
        hparsed.trans (Nat.zero_add k)⟩

end Sys2Proof.Machine
end

section
/-!
PROOFS. The source's scenario (R177): one Streaminfo block of 34 bytes, then DONE.
-/

namespace Sys2Proof.Machine

/-- The lanes of write data built from 34 bytes are these bytes. -/
theorem portBytes_wdataOfBytes {p : List Byte} (hp : p.length = 34) : portBytes (wdataOfBytes p) 34 = p := by
  apply List.ext_getElem?
  intro i
  rw [getElem?_portBytes]
  split_ifs with hi
  · rw [← byteLane_eq, byteLane_wdataOfBytes p hi, List.getD_eq_getElem p 0#8 (hp ▸ hi), List.getElem?_eq_getElem]
  · rw [List.getElem?_eq_none (by omega)]

/-- Settles O60: the magic, then one turn, whose header is the last, Streaminfo of 34 bytes, and whose payload goes to
SIDEC whole. -/
theorem oneBlockStream : Obligations.OneBlockStream := by
  intro p hp
  let g : ParseSystem := ⟨State.reset, ⟨[0x80#8, 0x00#8, 0x00#8, 0x22#8] ++ p, .eof⟩, true, .running, []⟩
  have hmagic := ParseSystem.step_start ([0x80#8, 0x00#8, 0x00#8, 0x22#8] ++ p) .eof
  have hheader : g.source.readExact 4 = .got [0x80#8, 0x00#8, 0x00#8, 0x22#8] ⟨p, .eof⟩ :=
    ByteSource.readExact_append _ p .eof rfl
  let w := g.withHeader [0x80#8, 0x00#8, 0x00#8, 0x22#8] ⟨p, .eof⟩
  have hhdr : w.block.hdr = ⟨true, 0#7, 34#24⟩ := g.hdr_withHeader _ _ _ _ _
  have hpayload : w.source.readExact w.block.hdr.length.toNat = .got p ⟨[], .eof⟩ := by
    have hread := ByteSource.readExact_append p [] .eof hp
    rw [List.append_nil] at hread
    rw [hhdr]
    exact hread
  have hiterate : g.iterate = w.readPayload := by
    rw [ParseSystem.iterate_of_readExact_got rfl hheader, if_neg]
    exact hhdr ▸ (by decide : ¬ 7 ≤ (0#7).toNat)
  obtain ⟨b, -, ⟨hshort, -⟩ | ⟨-, -, hhdr', hsi, hnext⟩⟩ :=
    ParseSystem.readPayload_streaminfo (g := w) rfl hpayload (by rw [hhdr])
  · rw [hhdr] at hshort
    exact absurd hshort (by decide)
  · rw [hhdr] at hhdr'
    rw [List.take_of_length_le hp.le, portBytes_wdataOfBytes hp] at hsi
    have hturn : g.step = .next _ := (ParseSystem.step_of_running rfl).trans (hiterate.trans hnext)
    refine ⟨_, ((ParseSystem.run_succ_of_step hmagic 1).trans (ParseSystem.run_succ_of_step hturn 0)), ?_, ?_, rfl, ?_⟩
    · simp [ParseSystem.emit, hhdr']
    · simp only [ParseSystem.emit, hhdr', hsi]
      rfl
    · simp [ParseSystem.emit, ParseSystem.exitZero, hhdr']

end Sys2Proof.Machine
end
